-- ==== Sys2Proof/Word.lean ====
section
/-! DEFINITION. The word types of XAET (00_scope.md section 5, "Widths"). -/

namespace Sys2Proof

/-- A register value, an address or a memory word: 32 bits (R4, R11, R13, R30). -/
abbrev Word := BitVec 32

/-- The unit of the address space (R30). -/
abbrev Byte := BitVec 8

/-- An instruction word: 24 bits (R50). -/
abbrev InsnWord := BitVec 24

/-- The index of a general register slot: a 4-bit field, every value of which selects a slot (R91). -/
abbrev SlotIndex := BitVec 4

end Sys2Proof
end

