-- ==== Sys2Proof/Config.lean ====
section
/-! DEFINITION. What an implementation of XAET fixes: the constants of R4 and the shape of the encoding parameters of R5.
The default numbers of the encoding parameters stand in Decode.lean. -/

namespace Sys2Proof

/-- The nine encoding parameters of R5 (D1), over 24-bit instruction words. -/
structure EncodingParams where
  /-- mask of the write-auxiliary-register class -/
  warMask : InsnWord
  /-- pattern of the write-auxiliary-register class -/
  warMatch : InsnWord
  /-- mask of the compare-and-swap-word class -/
  casMask : InsnWord
  /-- pattern of the compare-and-swap-word class -/
  casMatch : InsnWord
  /-- least significant bit of `target_reg` in a WAR word -/
  warTLsb : Nat
  /-- least significant bit of `aux_id` in a WAR word -/
  warIdLsb : Nat
  /-- least significant bit of `target_reg` in a CASW word -/
  casTLsb : Nat
  /-- least significant bit of `base_reg` in a CASW word -/
  casSLsb : Nat
  /-- least significant bit of `word_offset` in a CASW word -/
  casImmLsb : Nat
  deriving DecidableEq, Repr

/-- The watched auxiliary-register id, which selects `VAR` (R4, R16, R112). -/
def Config.watchedId : BitVec 8 := 12

/-- The fixed length of an instruction in bytes (R4, R50). -/
def Config.ilenBytes : Nat := 3

/-- The number of logical cores of the machine at reset, hence of XAET instances: the spec's default of the parameter
`NCORES` (R5, D11). -/
def Config.ncores : Nat := 1

/-- What a byte of memory that nothing has written reads as. DESIGN CHOICE (log 4): the spec leaves the contents of memory
unspecified (R23). -/
def Config.unlistedByte : Byte := 0

/-- What every general register slot holds at reset. DESIGN CHOICE (log 2): the spec gives no reset value (R23). -/
def Config.resetSlot : Word := 0

/-- What `ctx.pc` holds at reset. DESIGN CHOICE (log 3): the spec gives no reset value (R23). -/
def Config.resetPc : Word := 0

end Sys2Proof
end

