-- ==== Sys2Proof/Syntax.lean ====
section
/-! DEFINITION. The instructions of XAET: one constructor per row of spec/opcode_table.json, and the three shapes the
decoder answers (R81). -/

namespace Sys2Proof

/-- The type `Instruction` of R81: the three shapes of the decoder. Its compare-and-swap shape has the fields
`target_reg`, `base_reg`, `word_offset`. -/
inductive Shape where
  | writeAuxiliaryRegister (targetReg : SlotIndex) (auxId : BitVec 8)
  | compareAndSwapWord (targetReg baseReg : SlotIndex) (wordOffset : BitVec 8)
  | unrecognized
  deriving DecidableEq, Repr

/-- The rows of the opcode table. The engine's comparison of `aux_id` with the watched id splits the decoder's
write-auxiliary-register shape into two rows (30_encoding.md section 8, R112). -/
inductive Instr where
  /-- `WAR t, 12` (R110) -/
  | war (t : SlotIndex)
  /-- `WAR t, id` with `id` not the watched id (R111) -/
  | warUnwatched (t : SlotIndex) (id : BitVec 8)
  /-- `CASW t, s, off` (R120) -/
  | casw (t s : SlotIndex) (off : BitVec 8)
  /-- `UNREC w` (R130). The word is kept so that the syntax of R61 can be written back; no meaning reads it (log 21). -/
  | unrec (w : InsnWord)
  deriving DecidableEq, Repr

end Sys2Proof
end

