-- ==== Sys2Proof/WellFormed.lean ====
section
/-! DEFINITION. Which encoding parameters the spec allows (R63), and which instructions are well formed under them. -/

namespace Sys2Proof

/-- The match condition of the write-auxiliary-register class (R54). -/
def EncodingParams.isWar (p : EncodingParams) (w : InsnWord) : Bool :=
  w &&& p.warMask == p.warMatch

/-- The mask-and-pattern test of the compare-and-swap-word class (R55); the class also needs the first test to fail. -/
def EncodingParams.isCas (p : EncodingParams) (w : InsnWord) : Bool :=
  w &&& p.casMask == p.casMatch

/-- The bits of a field of `n` bits whose least significant bit is `lsb`. -/
def fieldMask (lsb n : Nat) : InsnWord :=
  (BitVec.allOnes n).setWidth 24 <<< lsb

/-- What R63 requires of the write-auxiliary-register format: the pattern lies inside the mask, the fields lie inside the
word, and no field overlaps the mask or another field (the last is DEDUCED, log 24). -/
def EncodingParams.warFormatOk (p : EncodingParams) : Bool :=
  p.warMatch &&& p.warMask == p.warMatch &&
  p.warTLsb + 4 ≤ 24 && p.warIdLsb + 8 ≤ 24 &&
  fieldMask p.warTLsb 4 &&& p.warMask == 0 &&
  fieldMask p.warIdLsb 8 &&& p.warMask == 0 &&
  fieldMask p.warTLsb 4 &&& fieldMask p.warIdLsb 8 == 0

/-- What R63 requires of the compare-and-swap-word format, in the same way. -/
def EncodingParams.casFormatOk (p : EncodingParams) : Bool :=
  p.casMatch &&& p.casMask == p.casMatch &&
  p.casTLsb + 4 ≤ 24 && p.casSLsb + 4 ≤ 24 && p.casImmLsb + 8 ≤ 24 &&
  fieldMask p.casTLsb 4 &&& p.casMask == 0 &&
  fieldMask p.casSLsb 4 &&& p.casMask == 0 &&
  fieldMask p.casImmLsb 8 &&& p.casMask == 0 &&
  fieldMask p.casTLsb 4 &&& fieldMask p.casSLsb 4 == 0 &&
  fieldMask p.casTLsb 4 &&& fieldMask p.casImmLsb 8 == 0 &&
  fieldMask p.casSLsb 4 &&& fieldMask p.casImmLsb 8 == 0

/-- The two classes are "disjoint by construction of the masks" (R56, R63): some bit that both masks test is required to
differ. -/
def EncodingParams.disjoint (p : EncodingParams) : Bool :=
  p.warMask &&& p.casMask &&& (p.warMatch ^^^ p.casMatch) != 0

/-- A parameter set that meets every requirement of R63. That masks and patterns lie within bits 23:0 is in their type. -/
def EncodingParams.valid (p : EncodingParams) : Bool :=
  p.warFormatOk && p.casFormatOk && p.disjoint

/-- An instruction that a word can stand for under the parameters `p`: an unwatched write names an id other than the watched
one (R111), and an unrecognized word is in neither class (R61, R130). Register indices and fields are in range by type
(R91). -/
def Instr.wfWith (p : EncodingParams) : Instr → Bool
  | .war _ => true
  | .warUnwatched _ id => id != Config.watchedId
  | .casw _ _ _ => true
  | .unrec w => !p.isWar w && !p.isCas w

end Sys2Proof
end

