-- ==== Sys2Proof/Decode.lean ====
section
/-! DEFINITION. The Instruction Decoder (operation DECODE, 41_decode.md), the reading of instruction bytes, and the encoder
of 30_encoding.md R61. -/

namespace Sys2Proof

/-- The default encoding parameters of R5. PRESUMED (log 1): the spec supplies these numbers from general knowledge (D1). -/
def encoding : EncodingParams where
  warMask := 0xFF000F
  warMatch := 0x130000
  casMask := 0x00F00F
  casMatch := 0x00E002
  warTLsb := 4
  warIdLsb := 8
  casTLsb := 4
  casSLsb := 8
  casImmLsb := 16

/-- Well-formedness under the default parameters. -/
def Instr.wf (i : Instr) : Bool := i.wfWith encoding

/-- A field of `n` bits of an instruction word, unsigned and unscaled (R53). -/
def fieldOf (w : InsnWord) (lsb n : Nat) : BitVec n := w.extractLsb' lsb n

/-- `DECODE(word)` of R80 for the parameters `p`: it looks only at bits 23:0 (R60) and tests the write-auxiliary-register
class first (R56, R82). -/
def decodeShape (p : EncodingParams) (word : Word) : Shape :=
  let w : InsnWord := word.setWidth 24
  if p.isWar w then
    .writeAuxiliaryRegister (fieldOf w p.warTLsb 4) (fieldOf w p.warIdLsb 8)
  else if p.isCas w then
    .compareAndSwapWord (fieldOf w p.casTLsb 4) (fieldOf w p.casSLsb 4) (fieldOf w p.casImmLsb 8)
  else
    .unrecognized

/-- The row of the opcode table that a decoded shape stands for. The comparison of `aux_id` with the watched id is the
engine's, an 8-bit equality made after decoding (R84, R112). -/
def rowOf (w : InsnWord) : Shape → Instr
  | .writeAuxiliaryRegister t id => if id = Config.watchedId then .war t else .warUnwatched t id
  | .compareAndSwapWord t s off => .casw t s off
  | .unrecognized => .unrec w

/-- The instruction a fetched word stands for under the parameters `p`. -/
def decodeWith (p : EncodingParams) (word : Word) : Instr :=
  rowOf (word.setWidth 24) (decodeShape p word)

/-- The instruction a fetched word stands for under the default parameters. It is total: no word is rejected (R83). -/
def decode (word : Word) : Instr := decodeWith encoding word

/-- Why a list of bytes is not the start of an instruction. -/
inductive DecodeError where
  /-- fewer than the 3 bytes of an instruction are there (R50) -/
  | truncated (given : Nat)
  deriving DecidableEq, Repr

/-- The instruction word of three consecutive bytes, the first in bits 7:0 (R51). -/
def insnOfBytes (b0 b1 b2 : Byte) : InsnWord := b2 ++ b1 ++ b0

/-- Decodes the first three bytes, and answers the rest. Three bytes are never rejected (R83). -/
def decodeBytes : List Byte → Except DecodeError (Instr × List Byte)
  | b0 :: b1 :: b2 :: rest => .ok (decode ((insnOfBytes b0 b1 b2).setWidth 32), rest)
  | short => .error (.truncated short.length)

/-- The word of an instruction under the parameters `p` (R61): the class's pattern with the fields put in their places. -/
def encodeWith (p : EncodingParams) : Instr → InsnWord
  | .war t =>
    p.warMatch ||| (t.setWidth 24 <<< p.warTLsb) ||| (Config.watchedId.setWidth 24 <<< p.warIdLsb)
  | .warUnwatched t id =>
    p.warMatch ||| (t.setWidth 24 <<< p.warTLsb) ||| (id.setWidth 24 <<< p.warIdLsb)
  | .casw t s off =>
    p.casMatch ||| (t.setWidth 24 <<< p.casTLsb) ||| (s.setWidth 24 <<< p.casSLsb)
      ||| (off.setWidth 24 <<< p.casImmLsb)
  | .unrec w => w

/-- The word of an instruction under the default parameters. -/
def encode (i : Instr) : InsnWord := encodeWith encoding i

/-- The three bytes of an instruction word in the order they lie in memory (R51). -/
def bytesOfInsn (w : InsnWord) : List Byte :=
  [w.extractLsb' 0 8, w.extractLsb' 8 8, w.extractLsb' 16 8]

/-- The bytes of an instruction. -/
def encodeBytes (i : Instr) : List Byte := bytesOfInsn (encode i)

/-- The 24 bits of an opcode-table word of `nbits` bits: every bit above `nbits` is 0. -/
def tableWord (nbits w : Nat) : InsnWord := BitVec.ofNat 24 (w % 2 ^ nbits)

/-- The instruction the decoder reads from an instruction whose bits are `w`, numbered as the opcode table numbers them.
No instruction is longer than 24 bits, so a longer row is refused (log 23). -/
def decodeTableWord (nbits w : Nat) : Option Instr :=
  if nbits ≤ 24 then
    match decodeBytes (bytesOfInsn (tableWord nbits w)) with
    | .ok (i, _) => some i
    | .error _ => none
  else
    none

end Sys2Proof
end

