-- ==== Sys2Proof/Machine/State.lean ====
section
/-! DEFINITION. The state of the machine (10_state.md), the reasons a step can stop, and the state after reset. -/

namespace Sys2Proof.Machine

/-- The execution context `ctx` that the dispatcher lends for one invocation (R10, R11, R13). -/
structure Context where
  /-- the 16 general register slots `x[0]` to `x[15]` (R11) -/
  x : Vector Word 16
  /-- the trapping program counter (R13) -/
  pc : Word
  deriving DecidableEq, Repr

/-- A memory event on the port M (R38): a word read at an aligned address, or a word written there. -/
inductive BusEvent where
  | read (addr : Word)
  | write (addr value : Word)
  deriving DecidableEq, Repr

/-- What a CASW holds between its load and its store: values that exist inside one invocation only (R20, R120). -/
structure Loaded where
  /-- `target_reg` -/
  target : SlotIndex
  /-- `new_value`, the value of `x[target_reg]` before the invocation -/
  newValue : Word
  /-- the effective address -/
  address : Word
  /-- `old_value`, the word the load returned -/
  oldValue : Word
  deriving DecidableEq, Repr

/-- An invocation that another agent or core finds between two of its memory events (R38, R43, R44; log 11). -/
inductive Flight where
  /-- a misaligned fetch after its first read; the second word is outstanding (R70) -/
  | firstWord (w0 : Word)
  /-- the fetch is complete; a CASW's load is outstanding -/
  | fetched (word : Word)
  /-- a CASW after its load; the comparison and the store are outstanding (R43) -/
  | loaded (l : Loaded)
  deriving DecidableEq, Repr

/-- One XAET instance with the context its core's dispatcher has lent it (R10, R17). -/
structure Instance where
  /-- the number of the logical core (R176) -/
  core : Nat
  /-- the lent context (R11, R13) -/
  ctx : Context
  /-- the Virtual Auxiliary Register `VAR` (R16) -/
  var : Word
  /-- the MODEL's field (log 7): the verdict the last finished invocation reported; an output (R21, R103) -/
  verdict : Option Bool
  /-- the invocation in progress between two memory events, if any (log 11) -/
  flight : Option Flight
  /-- the MODEL's field (log 7): the memory events of the current or last invocation, in order (R39, R44) -/
  bus : List BusEvent
  deriving DecidableEq, Repr

/-- A region of the address space with the answers of the memory port to accesses in it (R42). -/
structure Region where
  base : Nat
  size : Nat
  readable : Bool
  writable : Bool
  deriving DecidableEq, Repr

/-- The predicates `Readable` and `Writable` of R42 as plain data: the first region that holds an address answers for it, and
an address in no region is serviced neither way. -/
abbrev MemoryMap := List Region

/-- Memory: (address, byte) pairs in canonical form, see `Memory.wf`. An address that is not listed reads as
`Config.unlistedByte`. -/
abbrev Memory := List Host.Cell

/-- The canonical form of memory: addresses strictly rising and inside the address space, no entry equal to what an unlisted
address reads as. -/
def Memory.wf : Memory → Bool
  | [] => true
  | [c] => c.1 < 2 ^ 32 && c.2 != Config.unlistedByte
  | c :: d :: rest => c.1 < d.1 && c.1 < 2 ^ 32 && c.2 != Config.unlistedByte && Memory.wf (d :: rest)

/-- What the environment does next (log 10). Each input takes one step. -/
inductive Input where
  /-- The dispatcher of the acting core has captured `ctx` for a new trap (R142); `illegal` is its classification of the
  cause, `cause_is_illegal_instruction` (R141). -/
  | capture (illegal : Bool) (ctx : Context)
  /-- From here on the instance of core `core` acts (R161, R176). -/
  | select (core : Nat)
  /-- The acting instance performs only its next memory event, beginning an invocation if none is in progress (R38, R44). -/
  | event
  /-- Another memory agent writes `bytes` from address `addr` on, as one event (R43). -/
  | agentWrite (addr : Word) (bytes : List Byte)
  /-- The acting instance is reset (R170). -/
  | reset
  deriving DecidableEq, Repr

/-- The whole machine: the acting core's instance, the other cores' instances, the shared memory, the memory port's map, and
what the environment does next. -/
structure State where
  /-- the instance of the acting core -/
  inst : Instance
  /-- the instances of the other cores (R17, R161) -/
  others : List Instance
  /-- the shared memory (R24, R30) -/
  mem : Memory
  /-- `Readable` and `Writable` (R42); no step changes it (log 5) -/
  map : MemoryMap
  /-- the environment's next inputs, oldest first -/
  inputs : List Input
  deriving DecidableEq, Repr

/-- The hard faults of R151. Every one is terminal: no verdict, and nothing of the invocation's effect is applied (R150). -/
inductive Fault where
  /-- Raised by the fetcher where a word it reads is not `Readable` (R75). Safe. -/
  | fetchInaccessible (addr : Word)
  /-- Raised by CASW where the effective address is not a multiple of 4 (R35, D4; log 14). Safe. -/
  | dataMisaligned (addr : Word)
  /-- Raised by CASW where the word is not `Readable` at the load or not `Writable` at the store (R127). Safe. -/
  | dataInaccessible (addr : Word)
  deriving DecidableEq, Repr

/-- Why the model has no step: an input that breaks the contract of R146, for which the spec gives no behaviour (R163, D8). -/
inductive Refusal where
  /-- Raised by exec's arm of an instruction that has no meaning yet; no arm is left that raises it. Safe. -/
  | notModelled (mnemonic : String)
  /-- Raised by a capture whose cause is not an illegal instruction (duty H1, R141, R163). Safe. -/
  | causeNotIllegal
  /-- Raised by a capture while an invocation of the same instance is in progress (duties H3 and H4, R155, R163). Safe. -/
  | nestedInvocation
  /-- Raised by a reset while an invocation of the same instance is in progress (R173, D11). Safe. -/
  | resetInInvocation
  /-- Raised by the selection of a core that the machine does not have (R176). Safe. -/
  | noSuchCore (core : Nat)
  deriving DecidableEq, Repr

/-- An instance of core `k` after reset: `VAR` is 0 (R23, R172); the context is not XAET's state and holds the values of
logs 2 and 3; no invocation is in progress and none has finished. -/
def Instance.reset (k : Nat) : Instance where
  core := k
  ctx := { x := Vector.replicate 16 Config.resetSlot, pc := Config.resetPc }
  var := 0
  verdict := none
  flight := none
  bus := []

/-- The memory map at reset: the whole address space, readable and writable. DESIGN CHOICE (log 5): the spec makes the map a
model argument (R42, D21). -/
def MemoryMap.reset : MemoryMap := [{ base := 0, size := 2 ^ 32, readable := true, writable := true }]

/-- The machine right after reset (R23, R172): every core's instance reset, core 0 acting, memory with nothing listed, no input
pending. -/
def State.reset : State where
  inst := Instance.reset 0
  others := (List.range (Config.ncores - 1)).map fun k => Instance.reset (k + 1)
  mem := []
  map := MemoryMap.reset
  inputs := []

end Sys2Proof.Machine
end

