-- ==== Sys2Proof/Machine/Flags.lean ====
section
/-! DEFINITION. The one comparison of XAET. There is no status flag, condition code or predicate register (R21): the outcome
of the comparison is recorded nowhere. -/

namespace Sys2Proof.Machine

/-- The store condition of CASW: 32-bit equality of the loaded word with `VAR` (R123). -/
def swapCondition (oldValue var : Word) : Bool := oldValue == var

end Sys2Proof.Machine
end

