-- ==== Sys2Proof/Machine/Operands.lean ====
section
/-! DEFINITION. Operand forms and address arithmetic: slots (R90, R92), aligned fetch addresses (R33, R70) and the one
addressing mode of CASW (R121). -/

namespace Sys2Proof.Machine

/-- `get(ctx, i)` (R90): total over the 16 indices. -/
def Context.get (c : Context) (i : SlotIndex) : Word := c.x[i.toNat]'i.isLt

/-- `set(ctx, i, v)` (R92): slot `i` becomes `v`, everything else of the context stays. -/
def Context.set (c : Context) (i : SlotIndex) (v : Word) : Context :=
  { c with x := c.x.set i.toNat v i.isLt }

/-- Whether an address is a multiple of 4 (R31, R35). -/
def aligned (a : Word) : Bool := a.extractLsb' 0 2 == 0

/-- The address of the aligned word that holds the byte at `a` (R33, R70). -/
def alignedBase (a : Word) : Word := a &&& 0xFFFFFFFC

/-- The address of the aligned word after the one that holds the byte at `a`, modulo 2^32 (R33). -/
def nextAligned (a : Word) : Word := alignedBase a + 4

/-- The place of the byte at `a` in its aligned word (R70). -/
def byteOffset (a : Word) : Nat := (a.extractLsb' 0 2).toNat

/-- The displacement of a CASW: the word offset zero-extended and multiplied by 4 (R53, R121). -/
def displacement (off : BitVec 8) : Word := off.setWidth 32 * 4

/-- The effective address of `CASW _, s, off` in a context: base plus displacement modulo 2^32 (R33, R121). -/
def Context.caswAddress (c : Context) (s : SlotIndex) (off : BitVec 8) : Word :=
  c.get s + displacement off

/-- The instruction word of a fetch whose two words are `w0` and `w1`: 24 bits from byte offset `off` on of the 64-bit
little-endian buffer `w1 :: w0`, the high byte zero (R70, R71). -/
def assemble (w0 w1 : Word) (off : Nat) : Word :=
  (((w1 ++ w0) >>> (8 * off)).setWidth 24).setWidth 32

/-- The instruction word of an aligned fetch: the low 24 bits of the word read, the high byte zero (R70, R73). -/
def assembleAligned (w0 : Word) : Word := (w0.setWidth 24).setWidth 32

end Sys2Proof.Machine
end

