-- ==== Sys2Proof/Machine/Ops.lean ====
section
/-! DEFINITION. The named operations over memory, the acting instance and its context; the entry of a trap and the return from
one (60_exceptions.md). -/

namespace Sys2Proof.Machine

/-! ### Memory as bytes (R30, R32) -/

/-- The byte at an address. -/
def Memory.get : Memory → Nat → Byte
  | [], _ => Config.unlistedByte
  | c :: rest, a => if c.1 = a then c.2 else Memory.get rest a

/-- Lists `b` at `a`, in its place in the rising order. -/
def Memory.insert : Memory → Nat → Byte → Memory
  | [], a, b => [(a, b)]
  | c :: rest, a, b =>
    if a < c.1 then (a, b) :: c :: rest
    else if a = c.1 then (a, b) :: rest
    else c :: Memory.insert rest a b

/-- Stores one byte and keeps the canonical form: a byte equal to what an unlisted address reads as is taken off the list. -/
def Memory.put (m : Memory) (a : Nat) (b : Byte) : Memory :=
  if b = Config.unlistedByte then m.filter fun c => c.1 != a else Memory.insert m a b

/-- The byte at a 32-bit address. -/
def Memory.byte (m : Memory) (a : Word) : Byte := Memory.get m a.toNat

/-- Stores bytes from a 32-bit address on, addresses modulo 2^32 (R33). -/
def Memory.putBytes : Memory → Word → List Byte → Memory
  | m, _, [] => m
  | m, a, b :: rest => Memory.putBytes (Memory.put m a.toNat b) (a + 1) rest

/-- The little-endian word at an address (R32). -/
def Memory.word (m : Memory) (a : Word) : Word :=
  Memory.byte m (a + 3) ++ Memory.byte m (a + 2) ++ Memory.byte m (a + 1) ++ Memory.byte m a

/-- The bytes of a word in the order they lie in memory (R32). -/
def bytesOfWord (v : Word) : List Byte :=
  [v.extractLsb' 0 8, v.extractLsb' 8 8, v.extractLsb' 16 8, v.extractLsb' 24 8]

/-- Stores a word (R32, R37). -/
def Memory.putWord (m : Memory) (a v : Word) : Memory := Memory.putBytes m a (bytesOfWord v)

/-! ### The memory map (R42) -/

/-- Whether a region holds an address. -/
def Region.holds (r : Region) (a : Word) : Bool := r.base ≤ a.toNat && a.toNat < r.base + r.size

/-- The first region that holds an address. -/
def MemoryMap.find (m : MemoryMap) (a : Word) : Option Region := List.find? (fun r => r.holds a) m

/-- `Readable(addr)` (R42). -/
def MemoryMap.readable (m : MemoryMap) (a : Word) : Bool := ((MemoryMap.find m a).map Region.readable).getD false

/-- `Writable(addr)` (R42). -/
def MemoryMap.writable (m : MemoryMap) (a : Word) : Bool := ((MemoryMap.find m a).map Region.writable).getD false

/-- The map with the word at `a` readable, and everything else, `Writable` included, as it was. -/
def MemoryMap.withReadable (m : MemoryMap) (a : Word) : MemoryMap :=
  if MemoryMap.readable m a then m
  else { base := a.toNat, size := 1, readable := true, writable := MemoryMap.writable m a } :: m

/-! ### The acting instance -/

/-- The value of slot `i` of the acting instance's context (R90). -/
def State.slot (s : State) (i : SlotIndex) : Word := s.inst.ctx.get i

/-- `x[i] <- v` in the acting instance's context (R92). -/
def State.setSlot (s : State) (i : SlotIndex) (v : Word) : State :=
  { s with inst := { s.inst with ctx := s.inst.ctx.set i v } }

/-- `VAR <- v`, the auxiliary register mutator (R95). -/
def State.setVar (s : State) (v : Word) : State := { s with inst := { s.inst with var := v } }

/-- Reports the verdict to the dispatcher (R103, R143). -/
def State.report (s : State) (handled : Bool) : State :=
  { s with inst := { s.inst with verdict := some handled } }

/-- Records a memory event of the invocation (R38; log 7). -/
def State.record (s : State) (e : BusEvent) : State :=
  { s with inst := { s.inst with bus := s.inst.bus ++ [e] } }

/-- Begins an invocation's record of memory events (log 7). -/
def State.clearBus (s : State) : State := { s with inst := { s.inst with bus := [] } }

/-- Suspends the invocation between two memory events, or marks that none is in progress (log 11). -/
def State.setFlight (s : State) (f : Option Flight) : State := { s with inst := { s.inst with flight := f } }

/-- Replaces the memory. -/
def State.setMem (s : State) (m : Memory) : State := { s with mem := m }

/-! ### The two memory primitives (R36, R37) -/

/-- `MemRead(addr, 4)` (R36): the word, and the event recorded; the fault of the unit that issues it where the word is not
`Readable`. -/
def memRead (s : State) (a : Word) (inaccessible : Word → Fault) : Except Fault (Word × State) :=
  if s.map.readable a then .ok (s.mem.word a, s.record (.read a)) else .error (inaccessible a)

/-- `MemWrite(addr, 4, v)` (R37): the four bytes stored as one event; a fault, and nothing stored, where the word is not
`Writable`. -/
def memWrite (s : State) (a v : Word) : Except Fault State :=
  if s.map.writable a then .ok ((s.setMem (s.mem.putWord a v)).record (.write a v))
  else .error (.dataInaccessible a)

/-! ### The Instruction Fetcher (40_fetch.md) -/

/-- The first read of a fetch, `MemRead(A, 4)` (R70). -/
def fetchFirst (s : State) : Except Fault (Word × State) :=
  memRead s (alignedBase s.inst.ctx.pc) .fetchInaccessible

/-- The second read of a misaligned fetch, `MemRead(A + 4, 4)` (R70), and the instruction word assembled with the first. -/
def fetchSecond (s : State) (w0 : Word) : Except Fault (Word × State) :=
  match memRead s (nextAligned s.inst.ctx.pc) .fetchInaccessible with
  | .error f => .error f
  | .ok (w1, s1) => .ok (assemble w0 w1 (byteOffset s.inst.ctx.pc), s1)

/-- `FETCH(ctx.pc)` (R70): one read where the pc is aligned; otherwise both words, the lower first (R74, D6). -/
def fetch (s : State) : Except Fault (Word × State) :=
  match fetchFirst s with
  | .error f => .error f
  | .ok (w0, s1) => if aligned s.inst.ctx.pc then .ok (assembleAligned w0, s1) else fetchSecond s1 w0

/-! ### The trap's entry, its faults and the return from it (60_exceptions.md) -/

/-- The entry of a trap as XAET sees it (R142): the dispatcher hands over a fresh snapshot of the 16 registers and the
trapping pc. `VAR`, memory and everything else stay. -/
def takeTrap (s : State) (ctx : Context) : State := { s with inst := { s.inst with ctx := ctx } }

/-- `raise HardFault(kind, addr)` (R150): the invocation ends with no verdict and no further effect. -/
def raiseHardFault (f : Fault) : Host.Outcome State Fault Refusal := .fault f

/-- The dispatcher's resumption after the verdict `true` (R144): the pc advances by exactly 3 modulo 2^32. -/
def resumeAfter (s : State) : State :=
  { s with inst := { s.inst with ctx := { s.inst.ctx with pc := s.inst.ctx.pc + 3 } } }

/-- What the dispatcher does with the outcome of an invocation: on `true` it resumes after the instruction (R144); on `false`
nothing is specified and the state stays as it is (R145; log 8); a hard fault is fatal (R150). -/
def dispatch : Host.Outcome State Fault Refusal → Host.Outcome State Fault Refusal
  | .next s => if s.inst.verdict = some true then .next (resumeAfter s) else .next s
  | .fault f => .fault f
  | .refused r => .refused r

/-! ### Cores (R161, R176) -/

/-- Takes the instance of core `k` out of a list and leaves `parked` in its place. -/
def exchange : List Instance → Nat → Instance → Option (Instance × List Instance)
  | [], _, _ => none
  | i :: rest, k, parked =>
    if i.core = k then some (i, parked :: rest)
    else (exchange rest k parked).map fun r => (r.1, i :: r.2)

/-- Makes core `k` the acting core. -/
def selectCore (s : State) (k : Nat) : Host.Outcome State Fault Refusal :=
  if s.inst.core = k then .next s
  else
    match exchange s.others k s.inst with
    | none => .refused (.noSuchCore k)
    | some (i, others) => .next { s with inst := i, others := others }

/-- Reset of the acting instance: `VAR` becomes 0 and nothing else changes (R172). -/
def resetInstance (s : State) : State := s.setVar 0

/-- Places an instruction word of 24 bits where the next step fetches: its bytes at `ctx.pc`, the words fetched made
readable, no invocation in progress and no input pending (log 9). -/
def placeInsn (s : State) (w : InsnWord) : State :=
  let pc := s.inst.ctx.pc
  let map := MemoryMap.withReadable s.map (alignedBase pc)
  { s with
    inst := { s.inst with flight := none }
    mem := Memory.putBytes s.mem pc (bytesOfInsn w)
    map := if aligned pc then map else MemoryMap.withReadable map (nextAligned pc)
    inputs := [] }

end Sys2Proof.Machine
end

