-- ==== Sys2Proof/Machine/Casw.lean ====
section
/-! DEFINITION. The meaning of CASW (45_casw.md), in its two halves: up to the load, and from the comparison on. -/

namespace Sys2Proof.Machine

/-- The first half of CASW (R120, R122): both slots read, the alignment check (R35), the load. -/
def caswLoad (t b : SlotIndex) (off : BitVec 8) (s : State) : Except Fault (Loaded × State) :=
  let address := s.inst.ctx.caswAddress b off
  if aligned address then
    match memRead s address .dataInaccessible with
    | .error f => .error f
    | .ok (old, s1) =>
      .ok ({ target := t, newValue := s.slot t, address := address, oldValue := old }, s1)
  else
    .error (.dataMisaligned address)

/-- The last writes of CASW (R124): the target slot receives the loaded word, verdict `true`. -/
def caswReturn (l : Loaded) (s : State) : State := (s.setSlot l.target l.oldValue).report true

/-- The second half of CASW (R122): the comparison with `VAR`, the store where it succeeds (R123), the slot write and the
verdict (R124). -/
def caswFinish (l : Loaded) (s : State) : Host.Outcome State Fault Refusal :=
  if swapCondition l.oldValue s.inst.var then
    match memWrite s l.address l.newValue with
    | .error f => raiseHardFault f
    | .ok s1 => .next (caswReturn l s1)
  else
    .next (caswReturn l s)

/-- `CASW t, b, off` (R120): both halves with nothing between them, as one core sees it (R43 a). -/
def execCasw (t b : SlotIndex) (off : BitVec 8) (s : State) : Host.Outcome State Fault Refusal :=
  match caswLoad t b off s with
  | .error f => raiseHardFault f
  | .ok (l, s1) => caswFinish l s1

end Sys2Proof.Machine
end

