-- ==== Sys2Proof/Machine/Unrec.lean ====
section
/-! DEFINITION. The meaning of UNREC (46_unrec.md). -/

namespace Sys2Proof.Machine

/-- `UNREC w` (R130): nothing is read or written, verdict `false`. -/
def execUnrec (_w : InsnWord) (s : State) : Host.Outcome State Fault Refusal :=
  .next (s.report false)

end Sys2Proof.Machine
end

