-- ==== Sys2Proof/Machine/War.lean ====
section
/-! DEFINITION. The meanings of WAR (44_war.md). -/

namespace Sys2Proof.Machine

/-- `WAR t, 12` (R110): `VAR <- x[t]`, verdict `true`. -/
def execWar (t : SlotIndex) (s : State) : Host.Outcome State Fault Refusal :=
  .next ((s.setVar (s.slot t)).report true)

/-- `WAR t, id` to an unwatched id (R111): no slot is read, nothing is written, verdict `false`. -/
def execWarUnwatched (_t : SlotIndex) (_id : BitVec 8) (s : State) : Host.Outcome State Fault Refusal :=
  .next (s.report false)

end Sys2Proof.Machine
end

