-- ==== Sys2Proof/Machine/Dispatch.lean ====
section
/-! DEFINITION. The effect of each row of the opcode table (R101). -/

namespace Sys2Proof.Machine

def exec (i : Instr) (s : State) : Host.Outcome State Fault Refusal :=
  match i with
  | .war t => Sys2Proof.Machine.execWar t s
  | .warUnwatched t id => Sys2Proof.Machine.execWarUnwatched t id s
  | .casw t b off => Sys2Proof.Machine.execCasw t b off s
  | .unrec w => Sys2Proof.Machine.execUnrec w s

end Sys2Proof.Machine
end

