-- ==== Sys2Proof/Machine/Engine.lean ====
section
/-! DEFINITION. The Emulation Engine (43_engine.md): a whole invocation, the completion of one in progress, and an invocation
taken one memory event at a time for the sake of other memory agents (R38, R43, R44). -/

namespace Sys2Proof.Machine

/-- The effect of a fetched word: decode it, then its row's meaning (R101). The decode looks at the word only (R102). -/
def handleWord (word : Word) (s : State) : Host.Outcome State Fault Refusal := exec (decode word) s

/-- `handle(ctx)` (R101): fetch, decode, effect. -/
def handle (s : State) : Host.Outcome State Fault Refusal :=
  match fetch s.clearBus with
  | .error f => raiseHardFault f
  | .ok (word, s1) => handleWord word s1

/-- Runs an invocation to its end from where it stands: the whole of it if none is in progress, else the events that are
outstanding, in order (R44). -/
def complete (s : State) : Host.Outcome State Fault Refusal :=
  match s.inst.flight with
  | none => handle s
  | some (.firstWord w0) =>
    match fetchSecond (s.setFlight none) w0 with
    | .error f => raiseHardFault f
    | .ok (word, s1) => handleWord word s1
  | some (.fetched word) => handleWord word (s.setFlight none)
  | some (.loaded l) => caswFinish l (s.setFlight none)

/-- After a complete fetch in an invocation taken event by event: a CASW performs its load and stops before the comparison;
the other rows have no memory event left and end. -/
def eventAfterFetch (word : Word) (s : State) : Host.Outcome State Fault Refusal :=
  match decode word with
  | .casw t b off =>
    match caswLoad t b off s with
    | .error f => raiseHardFault f
    | .ok (l, s1) => .next (s1.setFlight (some (.loaded l)))
  | .war t => dispatch (exec (.war t) s)
  | .warUnwatched t id => dispatch (exec (.warUnwatched t id) s)
  | .unrec w => dispatch (exec (.unrec w) s)

/-- The next memory event of the acting instance, beginning an invocation if none is in progress (R38, R44; log 11). -/
def oneEvent (s : State) : Host.Outcome State Fault Refusal :=
  match s.inst.flight with
  | none =>
    match fetchFirst s.clearBus with
    | .error f => raiseHardFault f
    | .ok (w0, s1) =>
      if aligned s.inst.ctx.pc then .next (s1.setFlight (some (.fetched (assembleAligned w0))))
      else .next (s1.setFlight (some (.firstWord w0)))
  | some (.firstWord w0) =>
    match fetchSecond s w0 with
    | .error f => raiseHardFault f
    | .ok (word, s1) => .next (s1.setFlight (some (.fetched word)))
  | some (.fetched word) => eventAfterFetch word (s.setFlight none)
  | some (.loaded l) => dispatch (caswFinish l (s.setFlight none))

/-- What one input of the environment does (log 10). An input that breaks the contract of R146 is refused (R163). -/
def environment (i : Input) (s : State) : Host.Outcome State Fault Refusal :=
  match i with
  | .capture illegal ctx =>
    if s.inst.flight.isSome then .refused .nestedInvocation
    else if illegal then .next (takeTrap s ctx)
    else .refused .causeNotIllegal
  | .select k => selectCore s k
  | .event => oneEvent s
  | .agentWrite a bytes => .next (s.setMem (s.mem.putBytes a bytes))
  | .reset => if s.inst.flight.isSome then .refused .resetInInvocation else .next (resetInstance s)

end Sys2Proof.Machine
end

