-- ==== Sys2Proof/Machine/Step.lean ====
section
/-! DEFINITION. One step of the machine: the next input of the environment, or, where none is pending, an invocation run to its
end and the dispatcher's resumption. -/

namespace Sys2Proof.Machine

/-- One step (log 8, log 10). -/
def step (s : State) : Host.Outcome State Fault Refusal :=
  match s.inputs with
  | [] => dispatch (complete s)
  | i :: rest => environment i { s with inputs := rest }

/-- `s` with the instruction of a table word placed where the very next step fetches and runs it (log 9). -/
def State.withFetchWord (s : State) (nbits w : Nat) : State := placeInsn s (tableWord nbits w)

end Sys2Proof.Machine
end

