-- ==== Sys2Proof/Safety.lean ====
section
/-! DEFINITION. The words that statements about the machine use: an idle machine, the instruction at the pc, the accesses of an
invocation, and the invariant that every step keeps. -/

namespace Sys2Proof.Machine

/-- No input of the environment is pending and no invocation of the acting core is in progress, so that the next step is one
whole invocation. -/
abbrev State.idle (s : State) : Prop := s.inputs = [] ∧ s.inst.flight = none

/-- The instruction word in memory at the pc: its three bytes, the first in bits 7:0 (R51, R72). -/
def State.insnAt (s : State) : InsnWord :=
  insnOfBytes (s.mem.byte s.inst.ctx.pc) (s.mem.byte (s.inst.ctx.pc + 1)) (s.mem.byte (s.inst.ctx.pc + 2))

/-- The instruction at the pc. -/
def State.current (s : State) : Instr := decode (s.insnAt.setWidth 32)

/-- Every word that the fetch of the acting core reads is `Readable` (R39, duty H7 of R146). -/
def State.fetchable (s : State) : Bool :=
  s.map.readable (alignedBase s.inst.ctx.pc) &&
    (aligned s.inst.ctx.pc || s.map.readable (nextAligned s.inst.ctx.pc))

/-- The memory events of a fetch at `pc` (R39). -/
def fetchEvents (pc : Word) : List BusEvent :=
  if aligned pc then [.read (alignedBase pc)] else [.read (alignedBase pc), .read (nextAligned pc)]

/-- The state in which the effect of the instruction at the pc begins: as it was, with the fetch's memory events recorded. -/
def State.afterFetch (s : State) : State :=
  { s with inst := { s.inst with bus := fetchEvents s.inst.ctx.pc } }

/-- The effective address of `CASW _, b, off` in the acting instance's context (R121). -/
def State.caswAddress (s : State) (b : SlotIndex) (off : BitVec 8) : Word := s.inst.ctx.caswAddress b off

/-- The four bytes of the word at `e`. -/
def wordAddresses (e : Word) : List Word := [e, e + 1, e + 2, e + 3]

/-- The data events of an instruction that completes (R39): none but for a CASW, which loads, and stores where the loaded word
equals `VAR`. -/
def State.dataEvents (s : State) : Instr → List BusEvent
  | .war _ => []
  | .warUnwatched _ _ => []
  | .casw t b off =>
    let e := s.caswAddress b off
    if s.mem.word e = s.inst.var then [.read e, .write e (s.slot t)] else [.read e]
  | .unrec _ => []

/-- The fault that a CASW ends in, if any, in the order of R127. -/
def State.caswFault (s : State) (b : SlotIndex) (off : BitVec 8) : Option Fault :=
  let e := s.caswAddress b off
  if !aligned e then some (.dataMisaligned e)
  else if !s.map.readable e then some (.dataInaccessible e)
  else if s.mem.word e = s.inst.var ∧ s.map.writable e = false then some (.dataInaccessible e)
  else none

/-- The fault that an invocation at the pc ends in, if any, in the order of R153. -/
def State.invocationFault (s : State) : Option Fault :=
  let pc := s.inst.ctx.pc
  if !s.map.readable (alignedBase pc) then some (.fetchInaccessible (alignedBase pc))
  else if !aligned pc && !s.map.readable (nextAligned pc) then some (.fetchInaccessible (nextAligned pc))
  else match s.current with
    | .war _ => none
    | .warUnwatched _ _ => none
    | .casw _ b off => s.caswFault b off
    | .unrec _ => none

/-- The instruction whose effect the acting instance has yet to apply, read from memory as it is now: the one at the pc, or that of
the invocation in progress. After a CASW's load only its second half is left. -/
def State.running (s : State) : Option Instr :=
  match s.inst.flight with
  | none => some s.current
  | some (.firstWord w0) =>
    some (decode (assemble w0 (s.mem.word (nextAligned s.inst.ctx.pc)) (byteOffset s.inst.ctx.pc)))
  | some (.fetched w) => some (decode w)
  | some (.loaded _) => none

/-- `u` agrees with `s` on all that no instruction writes: the core, the invocation in progress, the other cores, the memory map
and the pending inputs. -/
abbrev State.sameRest (s u : State) : Prop :=
  u.inst.core = s.inst.core ∧ u.inst.flight = s.inst.flight ∧ u.others = s.others ∧ u.map = s.map ∧ u.inputs = s.inputs

/-- Every byte of memory reads in `u` as it does in `s`. -/
abbrev State.sameBytes (s u : State) : Prop := ∀ a : Word, u.mem.byte a = s.mem.byte a

/-- Every byte of memory outside the word at `e` reads in `u` as it does in `s`. -/
abbrev State.sameBytesOutside (s u : State) (e : Word) : Prop :=
  ∀ a : Word, a ∉ wordAddresses e → u.mem.byte a = s.mem.byte a

/-- All instances of the machine, the acting one first. -/
def State.instances (s : State) : List Instance := s.inst :: s.others

/-- The numbers of the machine's cores. -/
def State.cores (s : State) : List Nat := s.instances.map Instance.core

/-- `VAR[k]` (R176), if the machine has a core `k`. -/
def State.varOf (s : State) (k : Nat) : Option Word :=
  (s.instances.find? fun i => i.core == k).map Instance.var

/-- What holds of an invocation that stands between two memory events: only a misaligned fetch has a second word, a fetched
word has its high byte zero (R73), and a CASW's address is aligned and `Readable` and its context has not been touched since
its slots were read (R35, R122, duty H3 of R146). -/
def Instance.flightOk (map : MemoryMap) (i : Instance) : Bool :=
  match i.flight with
  | none => true
  | some (.firstWord _) => !aligned i.ctx.pc
  | some (.fetched w) => w.extractLsb' 24 8 == 0
  | some (.loaded l) => aligned l.address && map.readable l.address && l.newValue == i.ctx.get l.target

/-- The invariant that every step keeps: memory is in its canonical form, no two instances are of one core (R17, R180), and every
invocation in progress stands as it should. -/
def State.inv (s : State) : Bool :=
  s.mem.wf && decide s.cores.Nodup && s.instances.all (Instance.flightOk s.map)

/-- A safe step: it answers a next state. -/
def State.stepsSafely (s : State) : Prop := ∃ u, step s = .next u

/-- An outcome with the other cores' instances of its next state replaced. -/
def withOthers (o : List Instance) : Host.Outcome State Fault Refusal → Host.Outcome State Fault Refusal
  | .next s => .next { s with others := o }
  | .fault f => .fault f
  | .refused r => .refused r

/-- What an invocation leaves for others to see: the context, `VAR`, the verdict, the memory events and the memory. -/
structure Effect where
  ctx : Context
  var : Word
  verdict : Option Bool
  bus : List BusEvent
  mem : Memory
  deriving DecidableEq, Repr

/-- The effect that an outcome shows, or its fault or refusal. -/
def effectOf : Host.Outcome State Fault Refusal → Host.Outcome Effect Fault Refusal
  | .next s =>
    .next { ctx := s.inst.ctx, var := s.inst.var, verdict := s.inst.verdict, bus := s.inst.bus, mem := s.mem }
  | .fault f => .fault f
  | .refused r => .refused r

end Sys2Proof.Machine
end

