-- ==== Sys2Proof/Certificates/Slice0/Obligations.lean ====
section
/-! DEFINITION. The statements about the model that the provers settle. -/

open Sys2Proof Sys2Proof.Machine

/-! ### Encoding and decoding -/

/-- For every parameter set that R63 allows and every instruction well formed under it, decoding the encoding gives the
instruction back, with every operand at every value. -/
def Obligations.DecodeInvertsEncodeForAllParameters : Prop :=
  ∀ (p : EncodingParams) (i : Instr), p.valid = true → i.wfWith p = true →
    decodeWith p ((encodeWith p i).setWidth 32) = i

/-- With the default parameters every 24-bit word is the encoding of the one well-formed instruction it decodes to. -/
def Obligations.EncodeInvertsDecode : Prop :=
  ∀ w : InsnWord, (decode (w.setWidth 32)).wf = true ∧ encode (decode (w.setWidth 32)) = w

/-- An instruction is three bytes long whatever it is, and its bytes decode to it with the bytes that follow left over (R50,
R51). -/
def Obligations.InstructionBytesDecodeBack : Prop :=
  ∀ (i : Instr) (rest : List Byte), i.wf = true →
    (encodeBytes i).length = 3 ∧ decodeBytes (encodeBytes i ++ rest) = .ok (i, rest)

/-- R82: the write-auxiliary-register test comes first whatever the parameters, the compare-and-swap test second, and a word that
passes neither is unrecognized. -/
def Obligations.ClassTestsOrdered : Prop :=
  (∀ (p : EncodingParams) (word : Word), p.isWar (word.setWidth 24) = true →
    ∃ t id, decodeShape p word = .writeAuxiliaryRegister t id) ∧
  (∀ (p : EncodingParams) (word : Word), p.isWar (word.setWidth 24) = false → p.isCas (word.setWidth 24) = true →
    ∃ t s off, decodeShape p word = .compareAndSwapWord t s off) ∧
  (∀ (p : EncodingParams) (word : Word), p.isWar (word.setWidth 24) = false → p.isCas (word.setWidth 24) = false →
    decodeShape p word = .unrecognized)

/-- The classes are disjoint under every parameter set that R63 allows, hence under the default one (which the spec infers in
section 3 of 30_encoding.md, "so no word matches both"). -/
def Obligations.ClassesDisjoint : Prop :=
  (∀ (p : EncodingParams) (w : InsnWord), p.valid = true → ¬ (p.isWar w = true ∧ p.isCas w = true)) ∧
  (∀ w : InsnWord, ¬ (encoding.isWar w = true ∧ encoding.isCas w = true))

/-- The corner cases of the decoder that the spec infers (R87, "[derived: from rule R80]") under the default parameters, whose
numbers are log 1's, among them what every flip of one masked bit of a recognized word gives. -/
def Obligations.DecoderCornerCases : Prop :=
  decodeShape encoding 0x000000 = .unrecognized ∧ decodeShape encoding 0xFFFFFF = .unrecognized ∧
  (∀ w : InsnWord, w.extractLsb' 0 4 = 0 → w.extractLsb' 16 8 = 0x13 →
    decodeShape encoding (w.setWidth 32) = .writeAuxiliaryRegister (w.extractLsb' 4 4) (w.extractLsb' 8 8)) ∧
  decodeShape encoding 0x13E000 = .writeAuxiliaryRegister 0 0xE0 ∧
  (∀ w : InsnWord, w.extractLsb' 0 4 = 2 → w.extractLsb' 12 4 = 0xE →
    decodeShape encoding (w.setWidth 32) =
      .compareAndSwapWord (w.extractLsb' 4 4) (w.extractLsb' 8 4) (w.extractLsb' 16 8)) ∧
  decodeShape encoding 0x13E002 = .compareAndSwapWord 0 0 0x13 ∧
  (∀ (t : SlotIndex) (id : BitVec 8) (k : Nat), encoding.warMask.getLsbD k = true →
    decodeShape encoding (((((0x13 : Byte) ++ id ++ t ++ (0 : BitVec 4) : InsnWord)) ^^^ ((1 : InsnWord) <<< k)).setWidth 32) =
      if k = 1 ∧ id.extractLsb' 4 4 = 0xE then .compareAndSwapWord t (id.extractLsb' 0 4) 0x13 else .unrecognized) ∧
  (∀ (t s : SlotIndex) (off : BitVec 8) (k : Nat), encoding.casMask.getLsbD k = true →
    decodeShape encoding (((off ++ (0xE : BitVec 4) ++ s ++ t ++ (2 : BitVec 4) : InsnWord) ^^^ ((1 : InsnWord) <<< k)).setWidth 32) =
      if k = 1 ∧ off = 0x13 then .writeAuxiliaryRegister t ((0xE : BitVec 4) ++ s) else .unrecognized) ∧
  (∀ (high : Byte) (w : InsnWord), decodeShape encoding (high ++ w) = decodeShape encoding (w.setWidth 32)) ∧
  decodeShape encoding 0xAA130C00 = decodeShape encoding 0x130C00 ∧
  decodeShape encoding 0x130C00 = .writeAuxiliaryRegister 0 12 ∧
  decodeShape encoding 0x02E132 = .compareAndSwapWord 3 1 2 ∧
  decodeShape encoding 0x030C00 = .unrecognized

/-- R58: every word in neither class is unrecognized, which is no error but the verdict `false`, and with the default parameters
these are 16707584 of the 2^24 words. -/
def Obligations.UnrecognizedWordsCounted : Prop :=
  (∀ (p : EncodingParams) (w : InsnWord), p.isWar w = false → p.isCas w = false →
    decodeShape p (w.setWidth 32) = .unrecognized) ∧
  (∀ (w : InsnWord) (s : State), exec (rowOf w .unrecognized) s = .next (s.report false)) ∧
  ((Finset.range (2 ^ 24)).filter fun n => decodeShape encoding (BitVec.ofNat 32 n) = .unrecognized).card = 16707584

/-- R60: the decoder looks only at bits 23:0, whatever the parameters. -/
def Obligations.DecoderIgnoresHighByte : Prop :=
  ∀ (p : EncodingParams) (word : Word), decodeShape p word = decodeShape p (word &&& 0x00FFFFFF)

/-- Words written out from the formats of R52 decode to the instructions they stand for. -/
def Obligations.WrittenOutWordsDecode : Prop :=
  decodeBytes [0x30, 0x0C, 0x13] = .ok (.war 3, []) ∧
  decodeBytes [0x70, 0x03, 0x13] = .ok (.warUnwatched 7 3, []) ∧
  decodeBytes [0x32, 0xE1, 0x02] = .ok (.casw 3 1 2, []) ∧
  decodeBytes [0x00, 0x0C, 0x03] = .ok (.unrec 0x030C00, [])

/-- The default encoding parameters meet every requirement of R63. -/
def Obligations.DefaultParametersAllowed : Prop := encoding.valid = true

/-! ### The fetcher -/

/-- What the spec infers of the fetch (R72, "[derived: from rules R70, R71 and 20_memory.md rule R32]"): whatever the alignment
of the pc, the fetched word is the same function of the three instruction bytes, its high byte zero; so the same three bytes
fetch and decode alike at any alignment (P4). -/
def Obligations.FetchIsAlignmentInvariant : Prop :=
  (∀ s : State, s.fetchable = true →
    ∃ w u, fetch s = .ok (w, u) ∧ w.extractLsb' 0 8 = s.mem.byte s.inst.ctx.pc ∧
      w.extractLsb' 8 8 = s.mem.byte (s.inst.ctx.pc + 1) ∧ w.extractLsb' 16 8 = s.mem.byte (s.inst.ctx.pc + 2) ∧
      w.extractLsb' 24 8 = 0) ∧
  (∀ s t : State, s.fetchable = true → t.fetchable = true →
    s.mem.byte s.inst.ctx.pc = t.mem.byte t.inst.ctx.pc →
    s.mem.byte (s.inst.ctx.pc + 1) = t.mem.byte (t.inst.ctx.pc + 1) →
    s.mem.byte (s.inst.ctx.pc + 2) = t.mem.byte (t.inst.ctx.pc + 2) →
    ∃ w u v, fetch s = .ok (w, u) ∧ fetch t = .ok (w, v))

/-- R76: a fetch writes no state (the record of memory events is the model's own, log 7) and reads no more than the two aligned
words that flank the pc. -/
def Obligations.FetchOnlyReads : Prop :=
  ∀ (s u : State) (w : Word), fetch s = .ok (w, u) →
    u = { s with inst := { s.inst with bus := s.inst.bus ++ fetchEvents s.inst.ctx.pc } }

/-! ### Slots, VAR and memory -/

/-- R92: `x[i] <- v` makes slot `i` hold `v` and changes nothing else. -/
def Obligations.SlotWriteFrame : Prop :=
  ∀ (s : State) (i : SlotIndex) (v : Word),
    (s.setSlot i v).slot i = v ∧ (∀ j, j ≠ i → (s.setSlot i v).slot j = s.slot j) ∧
    (s.setSlot i v).inst.ctx.pc = s.inst.ctx.pc ∧ (s.setSlot i v).inst.var = s.inst.var ∧
    (s.setSlot i v).mem = s.mem ∧ (s.setSlot i v).inst.verdict = s.inst.verdict ∧
    (s.setSlot i v).inst.bus = s.inst.bus ∧ State.sameRest s (s.setSlot i v)

/-- What the spec infers of the register frame accessor (R93, "[derived: from rules R90, R92 and 10_state.md rule R11]"): its
laws, for all slots, slot 0 included, and all 32 bits. -/
def Obligations.SlotLaws : Prop :=
  ∀ (c : Context) (i j : SlotIndex) (v u : Word),
    (c.set i v).get i = v ∧ (j ≠ i → (c.set i v).get j = c.get j) ∧ (c.set i v).set i u = c.set i u

/-- R95: `VAR <- v` makes `VAR` hold `v` and changes nothing else; and it is the only write path, used by the watched WAR alone.
-/
def Obligations.VarWritePath : Prop :=
  (∀ (s : State) (v : Word),
    (s.setVar v).inst.var = v ∧ (s.setVar v).inst.ctx = s.inst.ctx ∧ (s.setVar v).mem = s.mem ∧
    (s.setVar v).inst.verdict = s.inst.verdict ∧ (s.setVar v).inst.bus = s.inst.bus ∧ State.sameRest s (s.setVar v)) ∧
  (∀ (i : Instr) (s u : State), exec i s = .next u → u.inst.var ≠ s.inst.var →
    ∃ t, i = .war t ∧ u.inst.var = s.slot t)

/-- R32, R36: a read of a `Readable` aligned word answers its four bytes in little-endian order and changes nothing but the
record of memory events; of another it is the fault of the unit that issued it. -/
def Obligations.MemReadAnswersWord : Prop :=
  ∀ (s : State) (a : Word) (k : Word → Fault), aligned a = true →
    (s.map.readable a = true →
      ∃ w, memRead s a k = .ok (w, s.record (.read a)) ∧ w.extractLsb' 0 8 = s.mem.byte a ∧
        w.extractLsb' 8 8 = s.mem.byte (a + 1) ∧ w.extractLsb' 16 8 = s.mem.byte (a + 2) ∧
        w.extractLsb' 24 8 = s.mem.byte (a + 3)) ∧
    (s.map.readable a = false → memRead s a k = .error (k a))

/-- R32, R37: a write of a `Writable` aligned word stores its four bytes in little-endian order and leaves every other byte
alone; of another it is a fault. -/
def Obligations.MemWriteStoresWord : Prop :=
  ∀ (s : State) (a v : Word), aligned a = true →
    (s.map.writable a = true →
      ∃ u, memWrite s a v = .ok u ∧ u.mem.byte a = v.extractLsb' 0 8 ∧ u.mem.byte (a + 1) = v.extractLsb' 8 8 ∧
        u.mem.byte (a + 2) = v.extractLsb' 16 8 ∧ u.mem.byte (a + 3) = v.extractLsb' 24 8 ∧ u.mem.word a = v ∧
        State.sameBytesOutside s u a ∧ u.inst.ctx = s.inst.ctx ∧ u.inst.var = s.inst.var ∧ State.sameRest s u) ∧
    (s.map.writable a = false → memWrite s a v = .error (.dataInaccessible a))

/-- The model's own convention (log 4): two memories in canonical form that read alike are equal as data. -/
def Obligations.CanonicalMemoryIsUnique : Prop :=
  ∀ m n : Memory, m.wf = true → n.wf = true → (∀ a : Word, m.byte a = n.byte a) → m = n

/-! ### The instructions -/

/-- WAR to the watched id: `VAR` becomes `x[t]`, the verdict is `true`, and nothing else changes (R110, P1). -/
def Obligations.WarWritesVar : Prop :=
  ∀ (t : SlotIndex) (s : State), ∃ u, exec (.war t) s = .next u ∧
    u.inst.var = s.slot t ∧ u.inst.verdict = some true ∧ u.inst.ctx = s.inst.ctx ∧ u.inst.bus = s.inst.bus ∧
    State.sameBytes s u ∧ u.mem = s.mem ∧ State.sameRest s u

/-- WAR to any other id: the verdict is `false` and nothing else changes (R111, P5). -/
def Obligations.UnwatchedWarChangesNothing : Prop :=
  ∀ (t : SlotIndex) (id : BitVec 8) (s : State), ∃ u, exec (.warUnwatched t id) s = .next u ∧
    u.inst.verdict = some false ∧ u.inst.var = s.inst.var ∧ u.inst.ctx = s.inst.ctx ∧ u.inst.bus = s.inst.bus ∧
    State.sameBytes s u ∧ u.mem = s.mem ∧ State.sameRest s u

/-- UNREC: the verdict is `false` and nothing else changes (R130, P5). -/
def Obligations.UnrecChangesNothing : Prop :=
  ∀ (w : InsnWord) (s : State), ∃ u, exec (.unrec w) s = .next u ∧
    u.inst.verdict = some false ∧ u.inst.var = s.inst.var ∧ u.inst.ctx = s.inst.ctx ∧ u.inst.bus = s.inst.bus ∧
    State.sameBytes s u ∧ u.mem = s.mem ∧ State.sameRest s u

/-- CASW where the loaded word equals `VAR` (R120, P2): the word becomes the old `x[t]`, the slot the old word, the verdict is
`true`; no other slot, no byte outside the word at the effective address, and nothing else changes. -/
def Obligations.CaswSwapsOnMatch : Prop :=
  ∀ (t b : SlotIndex) (off : BitVec 8) (s : State),
    aligned (s.caswAddress b off) = true → s.map.readable (s.caswAddress b off) = true →
    s.mem.word (s.caswAddress b off) = s.inst.var → s.map.writable (s.caswAddress b off) = true →
    ∃ u, exec (.casw t b off) s = .next u ∧
      u.mem.word (s.caswAddress b off) = s.slot t ∧ State.sameBytesOutside s u (s.caswAddress b off) ∧
      u.slot t = s.inst.var ∧ (∀ j, j ≠ t → u.slot j = s.slot j) ∧ u.inst.ctx.pc = s.inst.ctx.pc ∧
      u.inst.var = s.inst.var ∧ u.inst.verdict = some true ∧
      u.inst.bus = s.inst.bus ++ [.read (s.caswAddress b off), .write (s.caswAddress b off) (s.slot t)] ∧
      State.sameRest s u

/-- CASW where the loaded word differs from `VAR` (R123, P3): memory is unchanged and need not be `Writable`, the slot receives
the loaded word, the verdict is `true`, and nothing else changes. -/
def Obligations.CaswReturnsOnMismatch : Prop :=
  ∀ (t b : SlotIndex) (off : BitVec 8) (s : State),
    aligned (s.caswAddress b off) = true → s.map.readable (s.caswAddress b off) = true →
    s.mem.word (s.caswAddress b off) ≠ s.inst.var →
    ∃ u, exec (.casw t b off) s = .next u ∧
      State.sameBytes s u ∧ u.mem = s.mem ∧ u.slot t = s.mem.word (s.caswAddress b off) ∧
      (∀ j, j ≠ t → u.slot j = s.slot j) ∧ u.inst.ctx.pc = s.inst.ctx.pc ∧ u.inst.var = s.inst.var ∧
      u.inst.verdict = some true ∧ u.inst.bus = s.inst.bus ++ [.read (s.caswAddress b off)] ∧ State.sameRest s u

/-- What the spec infers of the outcome (R125, "[derived: from rules R123 and R124]"): after a CASW the slot equals `VAR`
exactly when the swap happened. -/
def Obligations.CaswOutcomeShowsInSlot : Prop :=
  ∀ (t b : SlotIndex) (off : BitVec 8) (s u : State), exec (.casw t b off) s = .next u →
    (u.slot t = s.inst.var ↔ s.mem.word (s.caswAddress b off) = s.inst.var)

/-- What the spec infers for `t = s` (R126, "[derived: from rules R120 and R122]"): the value stored is the base itself, the
word addressed is computed from the old slot value, and the slot holds the old word afterwards. -/
def Obligations.CaswWithTargetAsBase : Prop :=
  ∀ (t : SlotIndex) (off : BitVec 8) (s : State),
    aligned (s.slot t + displacement off) = true → s.map.readable (s.slot t + displacement off) = true →
    s.map.writable (s.slot t + displacement off) = true →
    ∃ u, exec (.casw t t off) s = .next u ∧ u.slot t = s.mem.word (s.slot t + displacement off) ∧
      u.mem.word (s.slot t + displacement off) =
        if s.mem.word (s.slot t + displacement off) = s.inst.var then s.slot t
        else s.mem.word (s.slot t + displacement off)

/-- R127: the effect of a CASW ends in a fault exactly where the rule says, the first in its order, and is never refused; and a
whole invocation whose instruction is a CASW ends in a fault of the fetch before any of them. -/
def Obligations.CaswFaultsInOrder : Prop :=
  ∀ (t b : SlotIndex) (off : BitVec 8) (s : State),
    (∀ f, exec (.casw t b off) s = .fault f ↔ s.caswFault b off = some f) ∧
    (∀ r, exec (.casw t b off) s ≠ .refused r) ∧
    (s.idle → s.current = .casw t b off →
      (s.fetchable = false → ∃ a, step s = .fault (.fetchInaccessible a)) ∧
      (s.fetchable = true → ∀ f, step s = .fault f ↔ s.caswFault b off = some f))

/-- R35: the effective address of a CASW is a multiple of 4 exactly when the base is; where it is not, the effect is the fault
`DataMisaligned` with that address. -/
def Obligations.CaswAddressAlignment : Prop :=
  ∀ (t b : SlotIndex) (off : BitVec 8) (s : State),
    aligned (s.caswAddress b off) = aligned (s.slot b) ∧
    (aligned (s.slot b) = false → exec (.casw t b off) s = .fault (.dataMisaligned (s.caswAddress b off)))

/-- R123: CASW stores exactly when the loaded word equals `VAR` in all 32 bits: then the store is made, and the word must be
`Writable`, even where it changes nothing; else no write is made. -/
def Obligations.CaswStoresExactlyOnEquality : Prop :=
  ∀ (t b : SlotIndex) (off : BitVec 8) (s : State),
    aligned (s.caswAddress b off) = true → s.map.readable (s.caswAddress b off) = true →
    (s.mem.word (s.caswAddress b off) = s.inst.var → s.map.writable (s.caswAddress b off) = true →
      ∃ u, exec (.casw t b off) s = .next u ∧ u.mem.word (s.caswAddress b off) = s.slot t ∧
        State.sameBytesOutside s u (s.caswAddress b off) ∧
        u.inst.bus = s.inst.bus ++ [.read (s.caswAddress b off), .write (s.caswAddress b off) (s.slot t)]) ∧
    (s.mem.word (s.caswAddress b off) = s.inst.var → s.map.writable (s.caswAddress b off) = false →
      exec (.casw t b off) s = .fault (.dataInaccessible (s.caswAddress b off))) ∧
    (s.mem.word (s.caswAddress b off) ≠ s.inst.var →
      ∃ u, exec (.casw t b off) s = .next u ∧ State.sameBytes s u ∧ u.inst.verdict = some true ∧
        u.slot t = s.mem.word (s.caswAddress b off) ∧ u.inst.bus = s.inst.bus ++ [.read (s.caswAddress b off)])

/-- R124: a CASW that completes always returns the loaded word in `x[t]` with the verdict `true`: equal to `VAR` where the swap
happened, different from it where it did not. -/
def Obligations.CaswAlwaysReturnsLoadedWord : Prop :=
  ∀ (t b : SlotIndex) (off : BitVec 8) (s u : State), exec (.casw t b off) s = .next u →
    u.slot t = s.mem.word (s.caswAddress b off) ∧ u.inst.verdict = some true ∧
    (s.mem.word (s.caswAddress b off) = s.inst.var →
      u.mem.word (s.caswAddress b off) = s.slot t ∧ u.slot t = u.inst.var) ∧
    (s.mem.word (s.caswAddress b off) ≠ s.inst.var → State.sameBytes s u ∧ u.slot t ≠ u.inst.var)

/-- What the spec infers of the verdict `false` (R132, "[derived: from rules R130 and 44_war.md R111]"): it has two causes, an
unrecognized word and a write to an unwatched id; both leave the whole state as it was and cannot be told apart. -/
def Obligations.FalseVerdictChangesNothing : Prop :=
  (∀ (i : Instr) (s u : State), exec i s = .next u → u.inst.verdict = some false →
    u = { s with inst := { s.inst with verdict := some false } } ∧
      ((∃ w, i = .unrec w) ∨ ∃ t id, i = .warUnwatched t id)) ∧
  (∀ (w : InsnWord) (t : SlotIndex) (id : BitVec 8) (s : State), exec (.unrec w) s = exec (.warUnwatched t id) s)

/-! ### Invocations -/

/-- When no input is pending, no invocation is in progress and the three bytes at the pc are readable and decode to `i`, a step is
exec of `i` on the state with the fetch recorded, and then the dispatcher's part: the pc 3 further on after `true`. -/
def Obligations.StepRunsDecodedInstruction : Prop :=
  ∀ (s : State) (i : Instr), s.idle → s.fetchable = true → i.wf = true →
    decodeBytes [s.mem.byte s.inst.ctx.pc, s.mem.byte (s.inst.ctx.pc + 1), s.mem.byte (s.inst.ctx.pc + 2)] = .ok (i, []) →
    step s = dispatch (exec i s.afterFetch) ∧
    (∀ u, exec i s.afterFetch = .next u → step s = .next (if u.inst.verdict = some true then resumeAfter u else u)) ∧
    (∀ f, exec i s.afterFetch = .fault f → step s = .fault f)

/-- An instruction placed by `withFetchWord` is what the very next step runs, from any state (the model's interface, log 9). -/
def Obligations.PlacedInstructionRunsNext : Prop :=
  ∀ (s : State) (nbits w : Nat) (i : Instr), decodeTableWord nbits w = some i →
    step (s.withFetchWord nbits w) = dispatch (exec i (s.withFetchWord nbits w).afterFetch)

/-- What the spec infers of the order of faults (R153, "[derived: from 43_engine.md rule R101, 45_casw.md rule R122]"): a whole
invocation ends in a fault exactly where one of the listed accesses or checks fails, with the first of them in the listed order;
otherwise it ends with a verdict. -/
def Obligations.InvocationFaultPriority : Prop :=
  ∀ s : State, s.idle →
    (∀ f, step s = .fault f ↔ s.invocationFault = some f) ∧
    (s.invocationFault = none → ∃ u v, step s = .next u ∧ u.inst.verdict = some v) ∧
    (∀ r, step s ≠ .refused r)

/-- R39: the memory events of an invocation that completes are exactly the fetch's and then the instruction's. -/
def Obligations.InvocationFootprint : Prop :=
  ∀ s u : State, s.idle → step s = .next u → u.inst.bus = fetchEvents s.inst.ctx.pc ++ s.dataEvents s.current

/-- R31: every access of an invocation that completes is to an aligned word. -/
def Obligations.EveryAccessIsAligned : Prop :=
  ∀ s u : State, handle s = .next u → ∀ a : Word,
    (.read a ∈ u.inst.bus ∨ ∃ v, .write a v ∈ u.inst.bus) → aligned a = true

/-- R104: an invocation, whole or resumed in the middle, never writes the pc. -/
def Obligations.InvocationNeverWritesPc : Prop :=
  ∀ s u : State, complete s = .next u → u.inst.ctx.pc = s.inst.ctx.pc

/-- R107: what an invocation leaves unchanged, whatever the instruction. -/
def Obligations.InvocationFrame : Prop :=
  ∀ s u : State, handle s = .next u →
    u.inst.ctx.pc = s.inst.ctx.pc ∧
    (∀ j, u.slot j ≠ s.slot j → ∃ b off, s.current = .casw j b off) ∧
    (∀ a, u.mem.byte a ≠ s.mem.byte a →
      ∃ t b off, s.current = .casw t b off ∧ a ∈ wordAddresses (s.caswAddress b off)) ∧
    (u.inst.var ≠ s.inst.var → ∃ t, s.current = .war t) ∧
    State.sameRest s u

/-- P1 from the bytes in memory, at any alignment: a step at the word `0x130C00 | t << 4` writes `VAR` and resumes 3 bytes on. -/
def Obligations.WatchedWarFromBytes : Prop :=
  ∀ (s : State) (t : SlotIndex), s.idle → s.fetchable = true →
    s.mem.byte s.inst.ctx.pc = t ++ (0 : BitVec 4) → s.mem.byte (s.inst.ctx.pc + 1) = 12 →
    s.mem.byte (s.inst.ctx.pc + 2) = 0x13 →
    ∃ u, step s = .next u ∧ u.inst.var = s.slot t ∧ u.inst.verdict = some true ∧
      u.inst.ctx.pc = s.inst.ctx.pc + 3 ∧ (∀ j, u.slot j = s.slot j) ∧ State.sameBytes s u ∧ State.sameRest s u

/-- P2 and P3 from the bytes in memory, at any alignment: a step at the word of `CASW t, b, off`. -/
def Obligations.CaswFromBytes : Prop :=
  ∀ (s : State) (t b : SlotIndex) (off : BitVec 8), s.idle → s.fetchable = true →
    s.mem.byte s.inst.ctx.pc = t ++ (2 : BitVec 4) → s.mem.byte (s.inst.ctx.pc + 1) = (0xE : BitVec 4) ++ b →
    s.mem.byte (s.inst.ctx.pc + 2) = off →
    aligned (s.slot b) = true → s.map.readable (s.caswAddress b off) = true →
    s.map.writable (s.caswAddress b off) = true →
    ∃ u, step s = .next u ∧ u.inst.verdict = some true ∧ u.inst.ctx.pc = s.inst.ctx.pc + 3 ∧
      u.slot t = s.mem.word (s.caswAddress b off) ∧ (∀ j, j ≠ t → u.slot j = s.slot j) ∧
      u.mem.word (s.caswAddress b off) =
        (if s.mem.word (s.caswAddress b off) = s.inst.var then s.slot t else s.mem.word (s.caswAddress b off)) ∧
      State.sameBytesOutside s u (s.caswAddress b off) ∧ u.inst.var = s.inst.var ∧ State.sameRest s u

/-- The resumption the model adds to an invocation (R144; that a step includes it is the model's choice, log 8): after `true`
the pc is 3 further on modulo 2^32 and the slots are as XAET left them; after `false` nothing is added. -/
def Obligations.StepResumesAfterTrue : Prop :=
  ∀ s v : State, s.idle → handle s = .next v →
    ∃ u, step s = .next u ∧ u.inst.ctx.x = v.inst.ctx.x ∧ u.mem = v.mem ∧ u.inst.var = v.inst.var ∧
      u.inst.verdict = v.inst.verdict ∧ u.inst.bus = v.inst.bus ∧ State.sameRest v u ∧
      u.inst.ctx.pc = if v.inst.verdict = some true then s.inst.ctx.pc + 3 else s.inst.ctx.pc

/-- R145: an invocation after the verdict `false` with nothing changed gives the same verdict and the same state again. -/
def Obligations.UnhandledTrapRepeats : Prop :=
  ∀ s u : State, s.idle → step s = .next u → u.inst.verdict = some false → step u = .next u

/-- R20: an invocation's outcome depends on the context, `VAR`, memory and the memory port only, never on earlier invocations or
other cores. -/
def Obligations.InvocationDependsOnlyOnItsInputs : Prop :=
  ∀ s t : State, s.idle → t.idle → s.inst.ctx = t.inst.ctx → s.inst.var = t.inst.var → s.mem = t.mem → s.map = t.map →
    effectOf (step s) = effectOf (step t)

/-! ### The whole machine -/

/-- Every step keeps the invariant: memory in canonical form, one instance per core, invocations in progress coherent. -/
def Obligations.StepKeepsInvariant : Prop :=
  ∀ s u : State, s.inv = true → step s = .next u → u.inv = true

/-- The state after reset meets the invariant. -/
def Obligations.ResetMeetsInvariant : Prop := State.reset.inv = true

/-- No step changes the memory map, which is the model's choice (log 5: the spec makes the map an argument and says nothing of its
changing); and no step starts a core or stops one (R161). -/
def Obligations.StepKeepsMapAndCores : Prop :=
  ∀ s u : State, step s = .next u → u.map = s.map ∧ u.cores.Perm s.cores

/-- R18 over every step of the machine: the `VAR` of a core changes only where that core acts, by a watched WAR, which sets it
to its slot, or by a reset of its instance. -/
def Obligations.VarChangesOnlyByWatchedWarOrReset : Prop :=
  ∀ (s u : State) (k : Nat), s.cores.Nodup → step s = .next u → u.varOf k ≠ s.varOf k →
    k = s.inst.core ∧
      ((∃ rest, s.inputs = .reset :: rest ∧ u.varOf k = some 0) ∨
       (∃ t, s.running = some (.war t) ∧ u.varOf k = some (s.slot t)))

/-- An invocation neither changes the other cores' instances nor depends on them (R17, R161). -/
def Obligations.OtherCoresUnseen : Prop :=
  ∀ (s : State) (o : List Instance), s.inputs = [] →
    step { s with others := o } = withOthers o (step s) ∧ (∀ u, step s = .next u → u.others = s.others)

/-- Refinement: an invocation that is stopped after any memory event and then resumed with nothing in between ends exactly as the
invocation taken whole (R44, R106, R183). -/
def Obligations.PausedInvocationEndsAlike : Prop :=
  ∀ s : State, s.inputs = [] →
    match step { s with inputs := [.event] } with
    | .next u => if u.inst.flight.isSome then step u = step s else step s = .next u
    | .fault f => step s = .fault f
    | .refused _ => False

/-- R43: another agent's write of the word between the load and the store of a CASW is lost, although the word no longer equals
`VAR` when the store is made. -/
def Obligations.ForeignWriteIsOverwritten : Prop :=
  ∀ (s : State) (t b : SlotIndex) (off : BitVec 8) (w : Word), s.idle → aligned s.inst.ctx.pc = true →
    s.fetchable = true → s.current = .casw t b off → aligned (s.caswAddress b off) = true →
    s.map.readable (s.caswAddress b off) = true → s.map.writable (s.caswAddress b off) = true →
    s.mem.word (s.caswAddress b off) = s.inst.var →
    ∃ v u, Host.Core.run Sys2Proof.core 3
        { s with inputs := [.event, .event, .agentWrite (s.caswAddress b off) (bytesOfWord w)] } = .next v ∧
      v.mem.word (s.caswAddress b off) = w ∧ step v = .next u ∧
      u.mem.word (s.caswAddress b off) = s.slot t ∧ u.slot t = s.inst.var ∧ u.inst.verdict = some true

/-- What the spec infers of `VAR` (R181, "[derived: from 10_state.md rules R17, R18 and 42_regframe_aux.md rule R95]"): a
watched WAR of another program on the same core changes the comparand of this one, since no new context restores `VAR`. -/
def Obligations.ProgramsOfOneCoreShareVar : Prop :=
  ∀ (s : State) (c d : Context) (t : SlotIndex), s.inst.flight = none → s.inputs = [.capture true c] →
    State.fetchable { s with inst := { s.inst with ctx := c } } = true →
    State.current { s with inst := { s.inst with ctx := c } } = .war t →
    ∃ u v, Host.Core.run Sys2Proof.core 2 s = .next u ∧ u.inst.var = c.get t ∧
      step { u with inputs := [.capture true d] } = .next v ∧ v.inst.ctx = d ∧ v.inst.var = c.get t

/-- The entry of a trap hands over the snapshot and changes nothing else (R142). -/
def Obligations.TrapEntryLendsContext : Prop :=
  ∀ (s : State) (c : Context) (rest : List Input), s.inputs = .capture true c :: rest → s.inst.flight = none →
    ∃ u, step s = .next u ∧ u.inst.ctx = c ∧ u.inst.var = s.inst.var ∧ u.inst.verdict = s.inst.verdict ∧
      u.inst.core = s.inst.core ∧ u.inst.flight = none ∧ u.inst.bus = s.inst.bus ∧ u.others = s.others ∧
      State.sameBytes s u ∧ u.mem = s.mem ∧ u.map = s.map ∧ u.inputs = rest

/-- What breaks the dispatcher's contract is refused (R155, R163, R173). -/
def Obligations.ContractBreachesRefused : Prop :=
  (∀ (s : State) (illegal : Bool) (c : Context) (rest : List Input), s.inputs = .capture illegal c :: rest →
    s.inst.flight.isSome = true → step s = .refused .nestedInvocation) ∧
  (∀ (s : State) (c : Context) (rest : List Input), s.inputs = .capture false c :: rest → s.inst.flight = none →
    step s = .refused .causeNotIllegal) ∧
  (∀ (s : State) (rest : List Input), s.inputs = .reset :: rest → s.inst.flight.isSome = true →
    step s = .refused .resetInInvocation)

/-- R172: reset makes `VAR` 0 and changes nothing else, at the machine's reset and at any later one. -/
def Obligations.InstanceResetClearsVarOnly : Prop :=
  State.reset.inst.var = 0 ∧ State.reset.inst.flight = none ∧
  ∀ (s : State) (rest : List Input), s.inputs = .reset :: rest → s.inst.flight = none →
    step s = .next { s with inst := { s.inst with var := 0 }, inputs := rest }

/-- The state after reset: one instance for each core, numbered from 0, every `VAR` 0 (R17, R23); the slots, the pc and memory at
the values the model names (logs 2, 3, 4, its choice), everything readable and writable (log 5, its choice). -/
def Obligations.ResetValues : Prop :=
  State.reset.cores = List.range Config.ncores ∧
  (∀ i ∈ State.reset.instances, i.var = 0 ∧ i.flight = none ∧ i.verdict = none ∧ i.bus = [] ∧ i.ctx.pc = 0 ∧
    ∀ k, i.ctx.get k = 0) ∧
  (∀ a, State.reset.mem.byte a = 0) ∧
  (∀ a, State.reset.map.readable a = true ∧ State.reset.map.writable a = true) ∧ State.reset.inputs = []

/-- The model's own arrangement of several cores: a select input (log 10) for a core that the machine has makes it the acting one,
with every instance, memory and the map as they were (log 6); for another it is refused (log 12). The spec says only that each core
has its own instance and that each invocation names its core. -/
def Obligations.CoreSelection : Prop :=
  ∀ (s : State) (k : Nat) (rest : List Input), s.inputs = .select k :: rest →
    (k ∈ s.cores → ∃ u, step s = .next u ∧ u.inst.core = k ∧ u.instances.Perm s.instances ∧
      State.sameBytes s u ∧ u.mem = s.mem ∧ u.map = s.map ∧ u.inputs = rest) ∧
    (k ∉ s.cores → step s = .refused (.noSuchCore k))

/-- A word that another agent writes is in memory after its one step, and every other byte, every register and every invocation in
progress is as before (R38, R43; that an agent's write is one event is the model's choice, log 20). -/
def Obligations.AgentWriteIsOneEvent : Prop :=
  ∀ (s : State) (a v : Word) (rest : List Input), s.inputs = .agentWrite a (bytesOfWord v) :: rest →
    ∃ u, step s = .next u ∧ u.mem.word a = v ∧ State.sameBytesOutside s u a ∧ u.inst = s.inst ∧
      u.others = s.others ∧ u.map = s.map ∧ u.inputs = rest
end

