-- ==== Sys2Proof/Laws/Memory.lean ====
section
/-! SUPPORT. The laws of memory: a read after a write, every other byte left alone, and the canonical form kept by every memory
operation. -/

namespace Sys2Proof.Machine

/-! ### One byte -/

theorem Memory.get_filter_same (m : Memory) (a : Nat) :
    Memory.get (m.filter fun c => c.1 != a) a = Config.unlistedByte := by
  induction m with
  | nil => rfl
  | cons c rest ih =>
    by_cases h : c.1 = a
    · simp [h, ih]
    · simp [h, Memory.get, ih]

theorem Memory.get_filter_other (m : Memory) {a b : Nat} (h : b ≠ a) :
    Memory.get (m.filter fun c => c.1 != a) b = Memory.get m b := by
  induction m with
  | nil => rfl
  | cons c rest ih =>
    by_cases hc : c.1 = a
    · have hb : c.1 ≠ b := fun e => h (e ▸ hc)
      simp [hc, Memory.get, ih, Ne.symm h]
    · simp [hc, Memory.get, ih]

theorem Memory.get_insert_same (m : Memory) (a : Nat) (b : Byte) : Memory.get (Memory.insert m a b) a = b := by
  induction m with
  | nil => simp [Memory.insert, Memory.get]
  | cons c rest ih =>
    unfold Memory.insert
    split
    · simp [Memory.get]
    · split
      · simp [Memory.get]
      · next hlt hne => simp [Memory.get, Ne.symm hne, ih]

theorem Memory.get_insert_other (m : Memory) {a a' : Nat} (h : a' ≠ a) (b : Byte) :
    Memory.get (Memory.insert m a b) a' = Memory.get m a' := by
  induction m with
  | nil => simp [Memory.insert, Memory.get, Ne.symm h]
  | cons c rest ih =>
    unfold Memory.insert
    split
    · simp [Memory.get, Ne.symm h]
    · split
      · next heq => simp [Memory.get, ← heq, Ne.symm h]
      · simp [Memory.get, ih]

/-- A byte reads as what was last stored there. -/
theorem Memory.get_put_same (m : Memory) (a : Nat) (b : Byte) : Memory.get (Memory.put m a b) a = b := by
  unfold Memory.put
  split
  · next h => rw [Memory.get_filter_same, h]
  · exact Memory.get_insert_same m a b

/-- A store leaves every other byte alone. -/
theorem Memory.get_put_other (m : Memory) {a a' : Nat} (h : a' ≠ a) (b : Byte) :
    Memory.get (Memory.put m a b) a' = Memory.get m a' := by
  unfold Memory.put
  split
  · exact Memory.get_filter_other m h
  · exact Memory.get_insert_other m h b

theorem Memory.byte_put (m : Memory) (a a' : Word) (b : Byte) :
    Memory.byte (Memory.put m a.toNat b) a' = if a' = a then b else Memory.byte m a' := by
  unfold Memory.byte
  split
  · next h => rw [h, Memory.get_put_same]
  · next h => exact Memory.get_put_other m (fun e => h (BitVec.eq_of_toNat_eq e)) b

/-! ### The canonical form -/

theorem Memory.wf_cons (c : Host.Cell) (rest : Memory) :
    Memory.wf (c :: rest) = true ↔
      c.1 < 2 ^ 32 ∧ c.2 ≠ Config.unlistedByte ∧ (∀ d ∈ rest, c.1 < d.1) ∧ Memory.wf rest = true := by
  induction rest generalizing c with
  | nil => simp [Memory.wf]
  | cons d rest ih =>
    constructor
    · intro h
      simp only [Memory.wf, Bool.and_eq_true, decide_eq_true_eq, bne_iff_ne, ne_eq] at h
      obtain ⟨⟨⟨hcd, hc⟩, hv⟩, hd⟩ := h
      obtain ⟨-, -, hlt, -⟩ := (ih d).1 hd
      refine ⟨hc, hv, ?_, hd⟩
      intro e he
      rcases List.mem_cons.1 he with rfl | he
      · exact hcd
      · exact Nat.lt_trans hcd (hlt e he)
    · rintro ⟨hc, hv, hlt, hd⟩
      simp only [Memory.wf, Bool.and_eq_true, decide_eq_true_eq, bne_iff_ne]
      exact ⟨⟨⟨hlt d (by simp), hc⟩, hv⟩, hd⟩

theorem Memory.wf_filter {m : Memory} (h : m.wf = true) (p : Host.Cell → Bool) : Memory.wf (m.filter p) = true := by
  induction m with
  | nil => rfl
  | cons c rest ih =>
    obtain ⟨hc, hv, hlt, hr⟩ := (Memory.wf_cons c rest).1 h
    rw [List.filter_cons]
    split
    · exact (Memory.wf_cons _ _).2 ⟨hc, hv, fun d hd => hlt d (List.mem_of_mem_filter hd), ih hr⟩
    · exact ih hr

theorem Memory.mem_insert {m : Memory} {a : Nat} {b : Byte} {d : Host.Cell} (h : d ∈ Memory.insert m a b) :
    d = (a, b) ∨ d ∈ m := by
  induction m with
  | nil => simpa [Memory.insert] using h
  | cons c rest ih =>
    unfold Memory.insert at h
    split at h
    · simpa using h
    · split at h
      · rcases List.mem_cons.1 h with h | h
        · exact .inl h
        · exact .inr (List.mem_cons_of_mem _ h)
      · rcases List.mem_cons.1 h with h | h
        · exact .inr (h ▸ List.mem_cons_self)
        · exact (ih h).imp_right (List.mem_cons_of_mem _)

theorem Memory.wf_insert {m : Memory} (h : m.wf = true) {a : Nat} (ha : a < 2 ^ 32) {b : Byte}
    (hb : b ≠ Config.unlistedByte) : Memory.wf (Memory.insert m a b) = true := by
  induction m with
  | nil => exact (Memory.wf_cons _ _).2 ⟨ha, hb, by simp, rfl⟩
  | cons c rest ih =>
    obtain ⟨hc, hv, hlt, hr⟩ := (Memory.wf_cons c rest).1 h
    unfold Memory.insert
    split
    · next hac =>
      refine (Memory.wf_cons _ _).2 ⟨ha, hb, fun d hd => ?_, h⟩
      rcases List.mem_cons.1 hd with rfl | hd
      · exact hac
      · exact Nat.lt_trans hac (hlt d hd)
    · split
      · next hac => exact (Memory.wf_cons _ _).2 ⟨ha, hb, fun d hd => hac ▸ hlt d hd, hr⟩
      · next hnlt hne =>
        refine (Memory.wf_cons _ _).2 ⟨hc, hv, fun d hd => ?_, ih hr⟩
        rcases Memory.mem_insert hd with rfl | hd
        · exact Nat.lt_of_le_of_ne (Nat.not_lt.1 hnlt) (Ne.symm hne)
        · exact hlt d hd

/-- A store of a byte keeps the canonical form. -/
theorem Memory.wf_put {m : Memory} (h : m.wf = true) {a : Nat} (ha : a < 2 ^ 32) (b : Byte) :
    Memory.wf (Memory.put m a b) = true := by
  unfold Memory.put
  split
  · exact Memory.wf_filter h _
  · next hb => exact Memory.wf_insert h ha hb

/-- A store of any number of bytes keeps the canonical form. -/
theorem Memory.wf_putBytes {m : Memory} (h : m.wf = true) (a : Word) (bytes : List Byte) :
    Memory.wf (Memory.putBytes m a bytes) = true := by
  induction bytes generalizing m a with
  | nil => exact h
  | cons b rest ih => exact ih (Memory.wf_put h a.isLt b) (a + 1)

/-- A store of a word keeps the canonical form. -/
theorem Memory.wf_putWord {m : Memory} (h : m.wf = true) (a v : Word) : Memory.wf (Memory.putWord m a v) = true :=
  Memory.wf_putBytes h a _

/-- Memory at reset has the canonical form. -/
theorem State.reset_mem_wf : State.reset.mem.wf = true := rfl

/-! ### Words -/

/-- A store of bytes leaves every byte it does not reach alone. -/
theorem Memory.byte_putBytes_other (m : Memory) (a c : Word) (bytes : List Byte)
    (h : ∀ k < bytes.length, c ≠ a + BitVec.ofNat 32 k) :
    Memory.byte (Memory.putBytes m a bytes) c = Memory.byte m c := by
  induction bytes generalizing m a with
  | nil => rfl
  | cons b rest ih =>
    rw [Memory.putBytes, ih, Memory.byte_put, if_neg (by simpa using h 0 (by simp))]
    intro k hk e
    apply h (k + 1) (by simpa using hk)
    rw [e, BitVec.add_assoc]
    congr 1
    apply BitVec.eq_of_toNat_eq
    have h1 : (1 : Word).toNat = 1 := rfl
    simp only [BitVec.toNat_add, BitVec.toNat_ofNat, h1]
    omega

/-- A store of a word leaves every byte outside the word alone. -/
theorem Memory.byte_putWord_other (m : Memory) (a v c : Word) (h : c ∉ wordAddresses a) :
    Memory.byte (Memory.putWord m a v) c = Memory.byte m c := by
  simp only [wordAddresses, List.mem_cons, List.not_mem_nil, or_false, not_or] at h
  simp only [Memory.putWord, bytesOfWord, Memory.putBytes, Memory.byte_put]
  have e2 : a + 1 + 1 = a + 2 := by rw [BitVec.add_assoc]; rfl
  have e3 : a + 2 + 1 = a + 3 := by rw [BitVec.add_assoc]; rfl
  rw [e2, e3, if_neg h.2.2.2, if_neg h.2.2.1, if_neg h.2.1, if_neg h.1]

/-- The four bytes of a word after it has been stored. -/
theorem Memory.byte_putWord (m : Memory) (a v : Word) :
    Memory.byte (Memory.putWord m a v) a = v.extractLsb' 0 8 ∧
    Memory.byte (Memory.putWord m a v) (a + 1) = v.extractLsb' 8 8 ∧
    Memory.byte (Memory.putWord m a v) (a + 2) = v.extractLsb' 16 8 ∧
    Memory.byte (Memory.putWord m a v) (a + 3) = v.extractLsb' 24 8 := by
  have e2 : a + 1 + 1 = a + 2 := by rw [BitVec.add_assoc]; rfl
  have e3 : a + 2 + 1 = a + 3 := by rw [BitVec.add_assoc]; rfl
  have h01 : a ≠ a + 1 := by bv_omega
  have h02 : a ≠ a + 2 := by bv_omega
  have h03 : a ≠ a + 3 := by bv_omega
  have h12 : a + 1 ≠ a + 2 := by bv_omega
  have h13 : a + 1 ≠ a + 3 := by bv_omega
  have h23 : a + 2 ≠ a + 3 := by bv_omega
  simp only [Memory.putWord, bytesOfWord, Memory.putBytes, Memory.byte_put, e2, e3]
  simp only [h01, h02, h03, h12, h13, h23, if_true, if_false, and_self]

/-- A word reads as what was last stored there. -/
theorem Memory.word_putWord (m : Memory) (a v : Word) : Memory.word (Memory.putWord m a v) a = v := by
  obtain ⟨h0, h1, h2, h3⟩ := Memory.byte_putWord m a v
  unfold Memory.word
  rw [h0, h1, h2, h3]
  apply BitVec.eq_of_getLsbD_eq
  intro i hi
  simp only [BitVec.getLsbD_append, BitVec.getLsbD_extractLsb']
  by_cases h8 : i < 8
  · simp [h8]
  by_cases h16 : i < 16
  · have : i - 8 < 8 := by omega
    simp [h8, this, show 8 + (i - 8) = i by omega]
  by_cases h24 : i < 24
  · have a1 : ¬ i - 8 < 8 := by omega
    have a2 : i - 8 - 8 < 8 := by omega
    simp [h8, a1, a2, show 16 + (i - 8 - 8) = i by omega]
  · have a1 : ¬ i - 8 < 8 := by omega
    have a2 : ¬ i - 8 - 8 < 8 := by omega
    have a3 : i - 8 - 8 - 8 < 8 := by omega
    simp [h8, a1, a2, a3, show 24 + (i - 8 - 8 - 8) = i by omega]

end Sys2Proof.Machine
end

