-- ==== Sys2Proof/Laws/State.lean ====
section
/-! SUPPORT. What every update of the state leaves in every field: one lemma per field and update, each true by unfolding the
update once, so that no later proof unfolds a record update. -/

namespace Sys2Proof.Machine

/-! ### Contexts (R90, R92, R93) -/

@[simp] theorem Context.set_pc (c : Context) (i : SlotIndex) (v : Word) : (c.set i v).pc = c.pc := rfl

@[simp] theorem Context.get_set_same (c : Context) (i : SlotIndex) (v : Word) : (c.set i v).get i = v := by
  simp [Context.get, Context.set]

theorem Context.get_set_other (c : Context) {i j : SlotIndex} (h : j ≠ i) (v : Word) : (c.set i v).get j = c.get j := by
  have hne : i.toNat ≠ j.toNat := fun e => h (BitVec.eq_of_toNat_eq e.symm)
  simp [Context.get, Context.set, Vector.getElem_set_ne, hne]

@[simp] theorem Context.get_with_pc (c : Context) (pc : Word) (i : SlotIndex) : ({ c with pc := pc } : Context).get i = c.get i :=
  rfl

/-! ### setSlot -/

@[simp] theorem State.setSlot_core (s : State) (i : SlotIndex) (v : Word) : (s.setSlot i v).inst.core = s.inst.core := rfl
@[simp] theorem State.setSlot_ctx (s : State) (i : SlotIndex) (v : Word) : (s.setSlot i v).inst.ctx = s.inst.ctx.set i v := rfl
@[simp] theorem State.setSlot_var (s : State) (i : SlotIndex) (v : Word) : (s.setSlot i v).inst.var = s.inst.var := rfl
@[simp] theorem State.setSlot_verdict (s : State) (i : SlotIndex) (v : Word) : (s.setSlot i v).inst.verdict = s.inst.verdict := rfl
@[simp] theorem State.setSlot_flight (s : State) (i : SlotIndex) (v : Word) : (s.setSlot i v).inst.flight = s.inst.flight := rfl
@[simp] theorem State.setSlot_bus (s : State) (i : SlotIndex) (v : Word) : (s.setSlot i v).inst.bus = s.inst.bus := rfl
@[simp] theorem State.setSlot_others (s : State) (i : SlotIndex) (v : Word) : (s.setSlot i v).others = s.others := rfl
@[simp] theorem State.setSlot_mem (s : State) (i : SlotIndex) (v : Word) : (s.setSlot i v).mem = s.mem := rfl
@[simp] theorem State.setSlot_map (s : State) (i : SlotIndex) (v : Word) : (s.setSlot i v).map = s.map := rfl
@[simp] theorem State.setSlot_inputs (s : State) (i : SlotIndex) (v : Word) : (s.setSlot i v).inputs = s.inputs := rfl

/-! ### setVar -/

@[simp] theorem State.setVar_core (s : State) (v : Word) : (s.setVar v).inst.core = s.inst.core := rfl
@[simp] theorem State.setVar_ctx (s : State) (v : Word) : (s.setVar v).inst.ctx = s.inst.ctx := rfl
@[simp] theorem State.setVar_var (s : State) (v : Word) : (s.setVar v).inst.var = v := rfl
@[simp] theorem State.setVar_verdict (s : State) (v : Word) : (s.setVar v).inst.verdict = s.inst.verdict := rfl
@[simp] theorem State.setVar_flight (s : State) (v : Word) : (s.setVar v).inst.flight = s.inst.flight := rfl
@[simp] theorem State.setVar_bus (s : State) (v : Word) : (s.setVar v).inst.bus = s.inst.bus := rfl
@[simp] theorem State.setVar_others (s : State) (v : Word) : (s.setVar v).others = s.others := rfl
@[simp] theorem State.setVar_mem (s : State) (v : Word) : (s.setVar v).mem = s.mem := rfl
@[simp] theorem State.setVar_map (s : State) (v : Word) : (s.setVar v).map = s.map := rfl
@[simp] theorem State.setVar_inputs (s : State) (v : Word) : (s.setVar v).inputs = s.inputs := rfl

/-! ### report -/

@[simp] theorem State.report_core (s : State) (b : Bool) : (s.report b).inst.core = s.inst.core := rfl
@[simp] theorem State.report_ctx (s : State) (b : Bool) : (s.report b).inst.ctx = s.inst.ctx := rfl
@[simp] theorem State.report_var (s : State) (b : Bool) : (s.report b).inst.var = s.inst.var := rfl
@[simp] theorem State.report_verdict (s : State) (b : Bool) : (s.report b).inst.verdict = some b := rfl
@[simp] theorem State.report_flight (s : State) (b : Bool) : (s.report b).inst.flight = s.inst.flight := rfl
@[simp] theorem State.report_bus (s : State) (b : Bool) : (s.report b).inst.bus = s.inst.bus := rfl
@[simp] theorem State.report_others (s : State) (b : Bool) : (s.report b).others = s.others := rfl
@[simp] theorem State.report_mem (s : State) (b : Bool) : (s.report b).mem = s.mem := rfl
@[simp] theorem State.report_map (s : State) (b : Bool) : (s.report b).map = s.map := rfl
@[simp] theorem State.report_inputs (s : State) (b : Bool) : (s.report b).inputs = s.inputs := rfl

/-! ### record -/

@[simp] theorem State.record_core (s : State) (e : BusEvent) : (s.record e).inst.core = s.inst.core := rfl
@[simp] theorem State.record_ctx (s : State) (e : BusEvent) : (s.record e).inst.ctx = s.inst.ctx := rfl
@[simp] theorem State.record_var (s : State) (e : BusEvent) : (s.record e).inst.var = s.inst.var := rfl
@[simp] theorem State.record_verdict (s : State) (e : BusEvent) : (s.record e).inst.verdict = s.inst.verdict := rfl
@[simp] theorem State.record_flight (s : State) (e : BusEvent) : (s.record e).inst.flight = s.inst.flight := rfl
@[simp] theorem State.record_bus (s : State) (e : BusEvent) : (s.record e).inst.bus = s.inst.bus ++ [e] := rfl
@[simp] theorem State.record_others (s : State) (e : BusEvent) : (s.record e).others = s.others := rfl
@[simp] theorem State.record_mem (s : State) (e : BusEvent) : (s.record e).mem = s.mem := rfl
@[simp] theorem State.record_map (s : State) (e : BusEvent) : (s.record e).map = s.map := rfl
@[simp] theorem State.record_inputs (s : State) (e : BusEvent) : (s.record e).inputs = s.inputs := rfl

/-! ### clearBus -/

@[simp] theorem State.clearBus_core (s : State) : s.clearBus.inst.core = s.inst.core := rfl
@[simp] theorem State.clearBus_ctx (s : State) : s.clearBus.inst.ctx = s.inst.ctx := rfl
@[simp] theorem State.clearBus_var (s : State) : s.clearBus.inst.var = s.inst.var := rfl
@[simp] theorem State.clearBus_verdict (s : State) : s.clearBus.inst.verdict = s.inst.verdict := rfl
@[simp] theorem State.clearBus_flight (s : State) : s.clearBus.inst.flight = s.inst.flight := rfl
@[simp] theorem State.clearBus_bus (s : State) : s.clearBus.inst.bus = [] := rfl
@[simp] theorem State.clearBus_others (s : State) : s.clearBus.others = s.others := rfl
@[simp] theorem State.clearBus_mem (s : State) : s.clearBus.mem = s.mem := rfl
@[simp] theorem State.clearBus_map (s : State) : s.clearBus.map = s.map := rfl
@[simp] theorem State.clearBus_inputs (s : State) : s.clearBus.inputs = s.inputs := rfl

/-! ### setFlight -/

@[simp] theorem State.setFlight_core (s : State) (f : Option Flight) : (s.setFlight f).inst.core = s.inst.core := rfl
@[simp] theorem State.setFlight_ctx (s : State) (f : Option Flight) : (s.setFlight f).inst.ctx = s.inst.ctx := rfl
@[simp] theorem State.setFlight_var (s : State) (f : Option Flight) : (s.setFlight f).inst.var = s.inst.var := rfl
@[simp] theorem State.setFlight_verdict (s : State) (f : Option Flight) : (s.setFlight f).inst.verdict = s.inst.verdict := rfl
@[simp] theorem State.setFlight_flight (s : State) (f : Option Flight) : (s.setFlight f).inst.flight = f := rfl
@[simp] theorem State.setFlight_bus (s : State) (f : Option Flight) : (s.setFlight f).inst.bus = s.inst.bus := rfl
@[simp] theorem State.setFlight_others (s : State) (f : Option Flight) : (s.setFlight f).others = s.others := rfl
@[simp] theorem State.setFlight_mem (s : State) (f : Option Flight) : (s.setFlight f).mem = s.mem := rfl
@[simp] theorem State.setFlight_map (s : State) (f : Option Flight) : (s.setFlight f).map = s.map := rfl
@[simp] theorem State.setFlight_inputs (s : State) (f : Option Flight) : (s.setFlight f).inputs = s.inputs := rfl

/-! ### setMem -/

@[simp] theorem State.setMem_core (s : State) (m : Memory) : (s.setMem m).inst.core = s.inst.core := rfl
@[simp] theorem State.setMem_ctx (s : State) (m : Memory) : (s.setMem m).inst.ctx = s.inst.ctx := rfl
@[simp] theorem State.setMem_var (s : State) (m : Memory) : (s.setMem m).inst.var = s.inst.var := rfl
@[simp] theorem State.setMem_verdict (s : State) (m : Memory) : (s.setMem m).inst.verdict = s.inst.verdict := rfl
@[simp] theorem State.setMem_flight (s : State) (m : Memory) : (s.setMem m).inst.flight = s.inst.flight := rfl
@[simp] theorem State.setMem_bus (s : State) (m : Memory) : (s.setMem m).inst.bus = s.inst.bus := rfl
@[simp] theorem State.setMem_others (s : State) (m : Memory) : (s.setMem m).others = s.others := rfl
@[simp] theorem State.setMem_mem (s : State) (m : Memory) : (s.setMem m).mem = m := rfl
@[simp] theorem State.setMem_map (s : State) (m : Memory) : (s.setMem m).map = s.map := rfl
@[simp] theorem State.setMem_inputs (s : State) (m : Memory) : (s.setMem m).inputs = s.inputs := rfl

/-! ### takeTrap -/

@[simp] theorem takeTrap_core (s : State) (c : Context) : (takeTrap s c).inst.core = s.inst.core := rfl
@[simp] theorem takeTrap_ctx (s : State) (c : Context) : (takeTrap s c).inst.ctx = c := rfl
@[simp] theorem takeTrap_var (s : State) (c : Context) : (takeTrap s c).inst.var = s.inst.var := rfl
@[simp] theorem takeTrap_verdict (s : State) (c : Context) : (takeTrap s c).inst.verdict = s.inst.verdict := rfl
@[simp] theorem takeTrap_flight (s : State) (c : Context) : (takeTrap s c).inst.flight = s.inst.flight := rfl
@[simp] theorem takeTrap_bus (s : State) (c : Context) : (takeTrap s c).inst.bus = s.inst.bus := rfl
@[simp] theorem takeTrap_others (s : State) (c : Context) : (takeTrap s c).others = s.others := rfl
@[simp] theorem takeTrap_mem (s : State) (c : Context) : (takeTrap s c).mem = s.mem := rfl
@[simp] theorem takeTrap_map (s : State) (c : Context) : (takeTrap s c).map = s.map := rfl
@[simp] theorem takeTrap_inputs (s : State) (c : Context) : (takeTrap s c).inputs = s.inputs := rfl

/-! ### resumeAfter -/

@[simp] theorem resumeAfter_core (s : State) : (resumeAfter s).inst.core = s.inst.core := rfl
@[simp] theorem resumeAfter_ctx (s : State) : (resumeAfter s).inst.ctx = { s.inst.ctx with pc := s.inst.ctx.pc + 3 } := rfl
@[simp] theorem resumeAfter_var (s : State) : (resumeAfter s).inst.var = s.inst.var := rfl
@[simp] theorem resumeAfter_verdict (s : State) : (resumeAfter s).inst.verdict = s.inst.verdict := rfl
@[simp] theorem resumeAfter_flight (s : State) : (resumeAfter s).inst.flight = s.inst.flight := rfl
@[simp] theorem resumeAfter_bus (s : State) : (resumeAfter s).inst.bus = s.inst.bus := rfl
@[simp] theorem resumeAfter_others (s : State) : (resumeAfter s).others = s.others := rfl
@[simp] theorem resumeAfter_mem (s : State) : (resumeAfter s).mem = s.mem := rfl
@[simp] theorem resumeAfter_map (s : State) : (resumeAfter s).map = s.map := rfl
@[simp] theorem resumeAfter_inputs (s : State) : (resumeAfter s).inputs = s.inputs := rfl

/-! ### resetInstance -/

@[simp] theorem resetInstance_core (s : State) : (resetInstance s).inst.core = s.inst.core := rfl
@[simp] theorem resetInstance_ctx (s : State) : (resetInstance s).inst.ctx = s.inst.ctx := rfl
@[simp] theorem resetInstance_var (s : State) : (resetInstance s).inst.var = 0 := rfl
@[simp] theorem resetInstance_verdict (s : State) : (resetInstance s).inst.verdict = s.inst.verdict := rfl
@[simp] theorem resetInstance_flight (s : State) : (resetInstance s).inst.flight = s.inst.flight := rfl
@[simp] theorem resetInstance_bus (s : State) : (resetInstance s).inst.bus = s.inst.bus := rfl
@[simp] theorem resetInstance_others (s : State) : (resetInstance s).others = s.others := rfl
@[simp] theorem resetInstance_mem (s : State) : (resetInstance s).mem = s.mem := rfl
@[simp] theorem resetInstance_map (s : State) : (resetInstance s).map = s.map := rfl
@[simp] theorem resetInstance_inputs (s : State) : (resetInstance s).inputs = s.inputs := rfl

/-! ### afterFetch -/

@[simp] theorem State.afterFetch_core (s : State) : s.afterFetch.inst.core = s.inst.core := rfl
@[simp] theorem State.afterFetch_ctx (s : State) : s.afterFetch.inst.ctx = s.inst.ctx := rfl
@[simp] theorem State.afterFetch_var (s : State) : s.afterFetch.inst.var = s.inst.var := rfl
@[simp] theorem State.afterFetch_verdict (s : State) : s.afterFetch.inst.verdict = s.inst.verdict := rfl
@[simp] theorem State.afterFetch_flight (s : State) : s.afterFetch.inst.flight = s.inst.flight := rfl
@[simp] theorem State.afterFetch_bus (s : State) : s.afterFetch.inst.bus = fetchEvents s.inst.ctx.pc := rfl
@[simp] theorem State.afterFetch_others (s : State) : s.afterFetch.others = s.others := rfl
@[simp] theorem State.afterFetch_mem (s : State) : s.afterFetch.mem = s.mem := rfl
@[simp] theorem State.afterFetch_map (s : State) : s.afterFetch.map = s.map := rfl
@[simp] theorem State.afterFetch_inputs (s : State) : s.afterFetch.inputs = s.inputs := rfl

/-! ### Slots after an update -/

@[simp] theorem State.slot_setSlot_same (s : State) (i : SlotIndex) (v : Word) : (s.setSlot i v).slot i = v :=
  Context.get_set_same _ _ _

theorem State.slot_setSlot_other (s : State) {i j : SlotIndex} (h : j ≠ i) (v : Word) : (s.setSlot i v).slot j = s.slot j :=
  Context.get_set_other _ h v

/-- A slot is read from the context alone, so every update that keeps the context keeps the slots. -/
theorem State.slot_of_ctx {s t : State} (h : t.inst.ctx = s.inst.ctx) (i : SlotIndex) : t.slot i = s.slot i := by
  simp [State.slot, h]

end Sys2Proof.Machine
end

