-- ==== Sys2Proof/Laws/Ops.lean ====
section
/-! SUPPORT. For each shared operation, one lemma that says all it can do: what it answers, and exactly when. Proofs cite these
instead of unfolding the operation. -/

namespace Sys2Proof.Machine

/-! ### The memory port (R36, R37, R42) -/

theorem memRead_ok {s u : State} {a w : Word} {k : Word → Fault} :
    memRead s a k = .ok (w, u) ↔ s.map.readable a = true ∧ w = s.mem.word a ∧ u = s.record (.read a) := by
  unfold memRead
  split
  · next h => exact ⟨fun e => by cases e; exact ⟨h, rfl, rfl⟩, fun ⟨_, hw, hu⟩ => by rw [hw, hu]⟩
  · next h => exact ⟨fun e => (nomatch e), fun e => absurd e.1 h⟩

theorem memRead_error {s : State} {a : Word} {k : Word → Fault} {f : Fault} :
    memRead s a k = .error f ↔ s.map.readable a = false ∧ f = k a := by
  unfold memRead
  split
  · next h => exact ⟨fun e => (nomatch e), fun e => by rw [h] at e; cases e.1⟩
  · next h => exact ⟨fun e => by cases e; exact ⟨by simpa using h, rfl⟩, fun ⟨_, hf⟩ => by rw [hf]⟩

theorem memWrite_ok {s u : State} {a v : Word} :
    memWrite s a v = .ok u ↔
      s.map.writable a = true ∧ u = (s.setMem (s.mem.putWord a v)).record (.write a v) := by
  unfold memWrite
  split
  · next h => exact ⟨fun e => by cases e; exact ⟨h, rfl⟩, fun ⟨_, hu⟩ => by rw [hu]⟩
  · next h => exact ⟨fun e => (nomatch e), fun e => absurd e.1 h⟩

theorem memWrite_error {s : State} {a v : Word} {f : Fault} :
    memWrite s a v = .error f ↔ s.map.writable a = false ∧ f = .dataInaccessible a := by
  unfold memWrite
  split
  · next h => exact ⟨fun e => (nomatch e), fun e => by rw [h] at e; cases e.1⟩
  · next h => exact ⟨fun e => by cases e; exact ⟨by simpa using h, rfl⟩, fun ⟨_, hf⟩ => by rw [hf]⟩

theorem MemoryMap.find_cons (r : Region) (m : MemoryMap) (a : Word) :
    MemoryMap.find (r :: m) a = if r.holds a then some r else MemoryMap.find m a := by
  unfold MemoryMap.find
  rw [List.find?_cons]
  cases r.holds a <;> rfl

theorem Region.holds_one {a c : Word} {r w : Bool} :
    Region.holds { base := a.toNat, size := 1, readable := r, writable := w } c = (c == a) := by
  by_cases hc : c = a
  · simp [hc, Region.holds]
  · have hne : c.toNat ≠ a.toNat := fun e => hc (BitVec.eq_of_toNat_eq e)
    simp only [Region.holds, beq_eq_false_iff_ne.2 hc, Bool.and_eq_false_iff, decide_eq_false_iff_not]
    omega

/-- `withReadable` makes one address readable and changes no other answer of `Readable`. -/
theorem MemoryMap.readable_withReadable (m : MemoryMap) (a c : Word) :
    MemoryMap.readable (MemoryMap.withReadable m a) c = (c == a || MemoryMap.readable m c) := by
  unfold MemoryMap.withReadable
  by_cases hc : c = a
  · subst hc
    split
    · next h => simpa using h
    · simp [MemoryMap.readable, MemoryMap.find_cons, Region.holds_one]
  · split
    · simp [hc]
    · simp [MemoryMap.readable, MemoryMap.find_cons, Region.holds_one, hc]

/-- `withReadable` changes no answer of `Writable`. -/
theorem MemoryMap.writable_withReadable (m : MemoryMap) (a c : Word) :
    MemoryMap.writable (MemoryMap.withReadable m a) c = MemoryMap.writable m c := by
  unfold MemoryMap.withReadable
  split
  · rfl
  · by_cases hc : c = a
    · subst hc
      simp [MemoryMap.writable, MemoryMap.find_cons, Region.holds_one]
    · simp [MemoryMap.writable, MemoryMap.find_cons, Region.holds_one, hc]

/-! ### The fetcher (R70, R74, R75) -/

theorem fetchFirst_ok {s u : State} {w : Word} :
    fetchFirst s = .ok (w, u) ↔
      s.map.readable (alignedBase s.inst.ctx.pc) = true ∧ w = s.mem.word (alignedBase s.inst.ctx.pc) ∧
        u = s.record (.read (alignedBase s.inst.ctx.pc)) :=
  memRead_ok

theorem fetchFirst_error {s : State} {f : Fault} :
    fetchFirst s = .error f ↔
      s.map.readable (alignedBase s.inst.ctx.pc) = false ∧ f = .fetchInaccessible (alignedBase s.inst.ctx.pc) :=
  memRead_error

theorem fetchSecond_ok {s u : State} {w0 w : Word} :
    fetchSecond s w0 = .ok (w, u) ↔
      s.map.readable (nextAligned s.inst.ctx.pc) = true ∧
        w = assemble w0 (s.mem.word (nextAligned s.inst.ctx.pc)) (byteOffset s.inst.ctx.pc) ∧
        u = s.record (.read (nextAligned s.inst.ctx.pc)) := by
  unfold fetchSecond
  split
  · next h =>
    obtain ⟨hr, -⟩ := memRead_error.1 h
    exact ⟨fun e => (nomatch e), fun e => by rw [hr] at e; cases e.1⟩
  · next h =>
    obtain ⟨hr, rfl, rfl⟩ := memRead_ok.1 h
    exact ⟨fun e => by cases e; exact ⟨hr, rfl, rfl⟩, fun ⟨_, hw, hu⟩ => by rw [hw, hu]⟩

theorem fetchSecond_error {s : State} {w0 : Word} {f : Fault} :
    fetchSecond s w0 = .error f ↔
      s.map.readable (nextAligned s.inst.ctx.pc) = false ∧ f = .fetchInaccessible (nextAligned s.inst.ctx.pc) := by
  unfold fetchSecond
  split
  · next h =>
    obtain ⟨hr, rfl⟩ := memRead_error.1 h
    exact ⟨fun e => by cases e; exact ⟨hr, rfl⟩, fun ⟨_, hf⟩ => by rw [hf]⟩
  · next h =>
    obtain ⟨hr, -, -⟩ := memRead_ok.1 h
    exact ⟨fun e => (nomatch e), fun e => by rw [hr] at e; cases e.1⟩

/-- A fetch with both its cases: one read, or two. -/
theorem fetch_eq (s : State) :
    fetch s =
      if s.map.readable (alignedBase s.inst.ctx.pc) = true then
        if aligned s.inst.ctx.pc = true then
          .ok (assembleAligned (s.mem.word (alignedBase s.inst.ctx.pc)),
            s.record (.read (alignedBase s.inst.ctx.pc)))
        else if s.map.readable (nextAligned s.inst.ctx.pc) = true then
          .ok (assemble (s.mem.word (alignedBase s.inst.ctx.pc)) (s.mem.word (nextAligned s.inst.ctx.pc))
              (byteOffset s.inst.ctx.pc),
            (s.record (.read (alignedBase s.inst.ctx.pc))).record (.read (nextAligned s.inst.ctx.pc)))
        else .error (.fetchInaccessible (nextAligned s.inst.ctx.pc))
      else .error (.fetchInaccessible (alignedBase s.inst.ctx.pc)) := by
  unfold fetch fetchFirst fetchSecond memRead
  by_cases hr : s.map.readable (alignedBase s.inst.ctx.pc) = true
  · simp only [hr, if_true, State.record_ctx, State.record_map, State.record_mem]
    by_cases ha : aligned s.inst.ctx.pc = true
    · simp only [ha, if_true]
    · simp only [ha, Bool.false_eq_true, if_false]
      by_cases hn : s.map.readable (nextAligned s.inst.ctx.pc) = true
      · simp only [hn, if_true]
      · simp only [hn, Bool.false_eq_true, if_false]
  · simp only [hr, Bool.false_eq_true, if_false]

/-! ### The dispatcher (R144, R145) -/

theorem dispatch_next {o : Host.Outcome State Fault Refusal} {u : State} :
    dispatch o = .next u ↔
      ∃ s, o = .next s ∧ u = if s.inst.verdict = some true then resumeAfter s else s := by
  cases o with
  | next s =>
    rw [dispatch, ← apply_ite Host.Outcome.next]
    exact ⟨fun e => by cases e; exact ⟨s, rfl, rfl⟩, fun ⟨s', e, hu⟩ => by cases e; rw [hu]⟩
  | fault f => simp [dispatch]
  | refused r => simp [dispatch]

theorem dispatch_fault {o : Host.Outcome State Fault Refusal} {f : Fault} : dispatch o = .fault f ↔ o = .fault f := by
  cases o with
  | next s => simp only [dispatch]; split <;> simp
  | fault g => simp [dispatch]
  | refused r => simp [dispatch]

theorem dispatch_refused {o : Host.Outcome State Fault Refusal} {r : Refusal} :
    dispatch o = .refused r ↔ o = .refused r := by
  cases o with
  | next s => simp only [dispatch]; split <;> simp
  | fault g => simp [dispatch]
  | refused r => simp [dispatch]

/-! ### Cores (R176) -/

theorem exchange_some {l l' : List Instance} {k : Nat} {p i : Instance} (h : exchange l k p = some (i, l')) :
    i.core = k ∧ ∃ before after, l = before ++ i :: after ∧ l' = before ++ p :: after := by
  induction l generalizing l' with
  | nil => simp [exchange] at h
  | cons j rest ih =>
    unfold exchange at h
    split at h
    · next hj =>
      simp only [Option.some.injEq, Prod.mk.injEq] at h
      obtain ⟨rfl, rfl⟩ := h
      exact ⟨hj, [], rest, rfl, rfl⟩
    · obtain ⟨⟨i', r'⟩, hr, he⟩ := Option.map_eq_some_iff.1 h
      simp only [Prod.mk.injEq] at he
      obtain ⟨rfl, rfl⟩ := he
      obtain ⟨hk, before, after, rfl, rfl⟩ := ih hr
      exact ⟨hk, j :: before, after, rfl, rfl⟩

theorem exchange_none {l : List Instance} {k : Nat} {p : Instance} :
    exchange l k p = none ↔ ∀ i ∈ l, i.core ≠ k := by
  induction l with
  | nil => simp [exchange]
  | cons j rest ih =>
    unfold exchange
    split
    · next h => simp [h]
    · next h => simp [h, ih]

/-- The selection of a core moves the acting instance into the place of the selected one, or changes nothing. -/
theorem selectCore_next {s u : State} {k : Nat} (h : selectCore s k = .next u) :
    (s.inst.core = k ∧ u = s) ∨
    (s.inst.core ≠ k ∧ ∃ i before after, i.core = k ∧ s.others = before ++ i :: after ∧
      u = { s with inst := i, others := before ++ s.inst :: after }) := by
  unfold selectCore at h
  split at h
  · next hk => cases h; exact .inl ⟨hk, rfl⟩
  · next hk =>
    split at h
    · cases h
    · next i others he =>
      cases h
      obtain ⟨hi, before, after, hl, rfl⟩ := exchange_some he
      exact .inr ⟨hk, i, before, after, hi, hl, rfl⟩

/-! ### The halves of CASW (R120, R122, R127) -/

theorem caswLoad_ok {t b : SlotIndex} {off : BitVec 8} {s u : State} {l : Loaded} :
    caswLoad t b off s = .ok (l, u) ↔
      aligned (s.caswAddress b off) = true ∧ s.map.readable (s.caswAddress b off) = true ∧
      l = { target := t, newValue := s.slot t, address := s.caswAddress b off,
            oldValue := s.mem.word (s.caswAddress b off) } ∧
      u = s.record (.read (s.caswAddress b off)) := by
  unfold caswLoad
  dsimp only [State.caswAddress]
  split
  · next ha =>
    split
    · next h =>
      obtain ⟨hr, -⟩ := memRead_error.1 h
      exact ⟨fun e => (nomatch e), fun e => by rw [hr] at e; cases e.2.1⟩
    · next h =>
      obtain ⟨hr, rfl, rfl⟩ := memRead_ok.1 h
      exact ⟨fun e => by cases e; exact ⟨ha, hr, rfl, rfl⟩, fun ⟨_, _, hl, hu⟩ => by rw [hl, hu]⟩
  · next ha => exact ⟨fun e => (nomatch e), fun e => absurd e.1 ha⟩

theorem caswLoad_error {t b : SlotIndex} {off : BitVec 8} {s : State} {f : Fault} :
    caswLoad t b off s = .error f ↔
      (aligned (s.caswAddress b off) = false ∧ f = .dataMisaligned (s.caswAddress b off)) ∨
      (aligned (s.caswAddress b off) = true ∧ s.map.readable (s.caswAddress b off) = false ∧
        f = .dataInaccessible (s.caswAddress b off)) := by
  unfold caswLoad
  dsimp only [State.caswAddress]
  split
  · next ha =>
    split
    · next h =>
      obtain ⟨hr, rfl⟩ := memRead_error.1 h
      constructor
      · intro e
        cases e
        exact .inr ⟨ha, hr, rfl⟩
      · rintro (⟨hna, -⟩ | ⟨-, -, hf⟩)
        · rw [ha] at hna; cases hna
        · rw [hf]
    · next h =>
      obtain ⟨hr, -, -⟩ := memRead_ok.1 h
      constructor
      · intro e
        cases e
      · rintro (⟨hna, -⟩ | ⟨-, hnr, -⟩)
        · rw [ha] at hna; cases hna
        · rw [hr] at hnr; cases hnr
  · next ha =>
    constructor
    · intro e
      cases e
      exact .inl ⟨by simpa using ha, rfl⟩
    · rintro (⟨-, hf⟩ | ⟨ha', -, -⟩)
      · rw [hf]
      · exact absurd ha' ha

/-- From the comparison on, a CASW stores and returns, returns without a store, or ends in the fault of the store. -/
theorem caswFinish_eq (l : Loaded) (s : State) :
    caswFinish l s =
      if l.oldValue = s.inst.var then
        if s.map.writable l.address = true then
          .next (caswReturn l ((s.setMem (s.mem.putWord l.address l.newValue)).record (.write l.address l.newValue)))
        else .fault (.dataInaccessible l.address)
      else .next (caswReturn l s) := by
  unfold caswFinish swapCondition memWrite raiseHardFault
  by_cases h : l.oldValue = s.inst.var
  · simp only [h, beq_self_eq_true, if_true]
    split <;> rename_i h2 <;> split at h2 <;> simp_all
  · simp [h]

end Sys2Proof.Machine
end

