-- ==== Sys2Proof/Laws/PerInstr.lean ====
section
/-! SUPPORT. Facts about every instruction as syntax, one lemma per constructor. -/

namespace Sys2Proof.Laws

/-- The masks and patterns of the opcode table's rows, in the table's order of priority. -/
def tableRows : List (InsnWord × InsnWord) :=
  [(0xFFFF0F, 0x130C00), (0xFF000F, 0x130000), (0x00F00F, 0x00E002), (0, 0)]

/-- The first row of the opcode table that a word matches. -/
def firstRow (w : InsnWord) : Nat := tableRows.findIdx fun r => w &&& r.1 == r.2

/-- The row of the opcode table that a constructor stands for. -/
def rowNumber : Instr → Nat
  | .war _ => 0
  | .warUnwatched _ _ => 1
  | .casw _ _ _ => 2
  | .unrec _ => 3

/-- The encoding of a well-formed instruction matches its own row of the opcode table and none before it. -/
def TableRow.Statement (i : Instr) : Prop := i.wf = true → firstRow (encode i) = rowNumber i

theorem firstRow_zero {w : InsnWord} (h : w &&& 0xFFFF0F = 0x130C00) : firstRow w = 0 := by
  simp_all [firstRow, tableRows, List.findIdx_cons, Bool.cond_eq_ite]

theorem firstRow_one {w : InsnWord} (h0 : w &&& 0xFFFF0F ≠ 0x130C00) (h : w &&& 0xFF000F = 0x130000) :
    firstRow w = 1 := by
  simp_all [firstRow, tableRows, List.findIdx_cons, Bool.cond_eq_ite]

theorem firstRow_two {w : InsnWord} (h0 : w &&& 0xFFFF0F ≠ 0x130C00) (h1 : w &&& 0xFF000F ≠ 0x130000)
    (h : w &&& 0x00F00F = 0x00E002) : firstRow w = 2 := by
  simp_all [firstRow, tableRows, List.findIdx_cons, Bool.cond_eq_ite]

theorem firstRow_three {w : InsnWord} (h0 : w &&& 0xFFFF0F ≠ 0x130C00) (h1 : w &&& 0xFF000F ≠ 0x130000)
    (h2 : w &&& 0x00F00F ≠ 0x00E002) : firstRow w = 3 := by
  simp_all [firstRow, tableRows, List.findIdx_cons, Bool.cond_eq_ite]

theorem TableRow.war (t : SlotIndex) : TableRow.Statement (.war t) := fun _ => firstRow_zero <| by
  apply BitVec.eq_of_getLsbD_eq
  intro i hi
  interval_cases i <;> simp [encode, encodeWith, encoding, Config.watchedId]

theorem TableRow.warUnwatched (t : SlotIndex) (id : BitVec 8) : TableRow.Statement (.warUnwatched t id) := by
  intro h
  have hid : id ≠ Config.watchedId := by simpa [Instr.wf, Instr.wfWith] using h
  have hfield : (encode (.warUnwatched t id) &&& 0xFFFF0F).extractLsb' 8 8 = id := by
    apply BitVec.eq_of_getLsbD_eq
    intro i hi
    interval_cases i <;> simp [encode, encodeWith, encoding]
  refine firstRow_one (fun e => hid ?_) ?_
  · rw [← hfield, e]
    decide
  · apply BitVec.eq_of_getLsbD_eq
    intro i hi
    interval_cases i <;> simp [encode, encodeWith, encoding]

theorem TableRow.casw (t s : SlotIndex) (off : BitVec 8) : TableRow.Statement (.casw t s off) := by
  intro _
  refine firstRow_two (fun e => ?_) (fun e => ?_) ?_
  · simpa [encode, encodeWith, encoding] using congrArg (BitVec.getLsbD · 1) e
  · simpa [encode, encodeWith, encoding] using congrArg (BitVec.getLsbD · 1) e
  · apply BitVec.eq_of_getLsbD_eq
    intro i hi
    interval_cases i <;> simp [encode, encodeWith, encoding]

theorem TableRow.unrec (w : InsnWord) : TableRow.Statement (.unrec w) := by
  intro h
  have hw : w &&& 0xFF000F ≠ 0x130000 ∧ w &&& 0x00F00F ≠ 0x00E002 := by
    simpa [Instr.wf, Instr.wfWith, EncodingParams.isWar, EncodingParams.isCas, encoding] using h
  refine firstRow_three (fun e => hw.1 ?_) hw.1 hw.2
  have hm : (0xFFFF0F : InsnWord) &&& 0xFF000F = 0xFF000F := by decide
  rw [← hm, ← BitVec.and_assoc, show w &&& 0xFFFF0F = 0x130C00 from e]
  decide

end Sys2Proof.Laws
end

