-- ==== Sys2Proof/Tests/Slice0.lean ====
section
/-! SUPPORT. Small tests: expected results are the spec's own vectors (95_test_vectors.md) or hand calculation from its rules; and,
for every statement with hypotheses, a concrete state and operands that meet them. -/

namespace Sys2Proof.Tests

open Sys2Proof.Machine

/-! ### Helpers -/

/-- A context with the given slots, every other slot 0. -/
def ctxOf (pc : Word) (slots : List (SlotIndex × Word)) : Context :=
  slots.foldl (fun c p => c.set p.1 p.2) { x := Vector.replicate 16 0, pc := pc }

/-- A machine after reset but for its context, `VAR` and the given words and bytes in memory. -/
def machine (ctx : Context) (var : Word) (bytes : List (Word × List Byte)) : State :=
  { State.reset with
    inst := { State.reset.inst with ctx := ctx, var := var }
    mem := bytes.foldl (fun m p => Memory.putBytes m p.1 p.2) [] }

/-- Whether an outcome is a next state with a property. -/
def nextWith (o : Host.Outcome State Fault Refusal) (p : State → Bool) : Bool :=
  match o with
  | .next s => p s
  | .fault _ => false
  | .refused _ => false

/-- The fault of an outcome, if it is one. -/
def faultOf (o : Host.Outcome State Fault Refusal) : Option Fault :=
  match o with
  | .next _ => none
  | .fault f => some f
  | .refused _ => none

theorem exists_next {o : Host.Outcome State Fault Refusal} {p : State → Bool} (h : nextWith o p = true) :
    ∃ u, o = .next u ∧ p u = true := by
  cases o with
  | next u => exact ⟨u, rfl, h⟩
  | fault f => cases h
  | refused r => cases h

/-! ### Well-formedness: each check refuses an ill-formed term -/

theorem test_wf_refuses_watched_id_as_unwatched : (Instr.warUnwatched 0 12).wf = false := by decide
theorem test_wf_refuses_war_word_as_unrec : (Instr.unrec 0x130C00).wf = false := by decide
theorem test_wf_refuses_casw_word_as_unrec : (Instr.unrec 0x00E002).wf = false := by decide
theorem test_wf_accepts_each_row :
    (Instr.war 15).wf = true ∧ (Instr.warUnwatched 0 11).wf = true ∧ (Instr.casw 15 15 255).wf = true ∧
      (Instr.unrec 0x030C00).wf = true := by decide
theorem test_params_refuse_war_pattern_outside_mask : ({ encoding with warMatch := 0x130010 }).valid = false := by decide
theorem test_params_refuse_war_target_outside_word : ({ encoding with warTLsb := 21 }).valid = false := by decide
theorem test_params_refuse_war_id_outside_word : ({ encoding with warIdLsb := 17 }).valid = false := by decide
theorem test_params_refuse_war_target_in_mask : ({ encoding with warMask := 0xFF00FF }).valid = false := by decide
theorem test_params_refuse_war_id_in_mask : ({ encoding with warMask := 0xFFF00F, warMatch := 0x130000 }).valid = false := by
  decide
theorem test_params_refuse_war_fields_overlapping : ({ encoding with warIdLsb := 7 }).valid = false := by decide
theorem test_params_refuse_cas_pattern_outside_mask : ({ encoding with casMatch := 0x00E012 }).valid = false := by decide
theorem test_params_refuse_cas_target_outside_word : ({ encoding with casTLsb := 21 }).valid = false := by decide
theorem test_params_refuse_cas_base_outside_word : ({ encoding with casSLsb := 21 }).valid = false := by decide
theorem test_params_refuse_cas_offset_outside_word : ({ encoding with casImmLsb := 17 }).valid = false := by decide
theorem test_params_refuse_cas_target_in_mask : ({ encoding with casMask := 0x00F01F }).valid = false := by decide
theorem test_params_refuse_cas_base_in_mask : ({ encoding with casMask := 0x00F10F }).valid = false := by decide
theorem test_params_refuse_cas_offset_in_mask : ({ encoding with casMask := 0x01F00F }).valid = false := by decide
theorem test_params_refuse_cas_target_over_base : ({ encoding with casTLsb := 8 }).valid = false := by decide
theorem test_params_refuse_cas_target_over_offset : ({ encoding with casTLsb := 20 }).valid = false := by decide
theorem test_params_refuse_cas_base_over_offset : ({ encoding with casSLsb := 16 }).valid = false := by decide
theorem test_params_refuse_classes_that_meet :
    ({ encoding with casMask := 0x00F000, casMatch := 0x00E000 }).valid = false := by decide

/-! ### Decoding: words written out from the formats of R52; the classes are those of 95_test_vectors.md section 3 -/

/-- `0001 0011 | 0000 1100 | 0011 | 0000`: WAR, id 12, t 3. -/
theorem test_decode_war : decode 0b000100110000110000110000 = .war 3 := by decide
/-- `0001 0011 | 0000 0011 | 0111 | 0000`: WAR, id 3, t 7. -/
theorem test_decode_war_unwatched : decode 0b000100110000001101110000 = .warUnwatched 7 3 := by decide
/-- `0000 0010 | 1110 | 0001 | 0011 | 0010`: CASW, off 2, s 1, t 3. -/
theorem test_decode_casw : decode 0b000000101110000100110010 = .casw 3 1 2 := by decide
/-- bit 20 of a WAR word cleared -/
theorem test_decode_unrec : decode 0b000000110000110000000000 = .unrec 0x030C00 := by decide
theorem test_decode_boundary_words :
    decode 0x130CF0 = .war 15 ∧ decode 0x130B00 = .warUnwatched 0 11 ∧ decode 0x130D00 = .warUnwatched 0 13 ∧
      decode 0x13FFF0 = .warUnwatched 15 255 ∧ decode 0x13E000 = .warUnwatched 0 0xE0 ∧ decode 0x00E002 = .casw 0 0 0 ∧
      decode 0xFFEFF2 = .casw 15 15 255 ∧ decode 0x13E002 = .casw 0 0 0x13 := by decide
theorem test_decode_neighbours_unrecognized :
    [0x000000, 0xFFFFFF, 0x120C00, 0x330C00, 0x610C00, 0x130C01, 0x130C02, 0x130C08, 0x00E000, 0x00E001, 0x00E003,
      0x00D002, 0x00F002].all (fun w => decodeShape encoding w == .unrecognized) = true := by decide
theorem test_decode_ignores_high_byte : decode 0x5502E132 = .casw 3 1 2 := by decide
theorem test_decode_bytes_too_short :
    decodeBytes [0x00, 0x0C] = .error (.truncated 2) := by decide
theorem test_encode_each_row :
    encode (.war 3) = 0x130C30 ∧ encode (.warUnwatched 7 3) = 0x130370 ∧ encode (.casw 3 1 2) = 0x02E132 ∧
      encodeBytes (.casw 3 1 2) = [0x32, 0xE1, 0x02] := by decide
theorem test_table_words :
    decodeTableWord 24 0x130C00 = some (.war 0) ∧ decodeTableWord 24 0x130000 = some (.warUnwatched 0 0) ∧
      decodeTableWord 24 0x00E002 = some (.casw 0 0 0) ∧ decodeTableWord 24 0 = some (.unrec 0) ∧
      decodeTableWord 32 0x130C00 = none := by decide

/-! ### Fetching (95_test_vectors.md section 2) -/

/-- Row 3 of section 2.1: offset 3, bytes `A0 A1 A2 32 E1 02 B2 B3`. -/
theorem test_fetch_offset_three :
    ((fetch (machine (ctxOf 0x40080003 []) 0
      [(0x40080000, [0xA0, 0xA1, 0xA2, 0x32, 0xE1, 0x02, 0xB2, 0xB3])])).toOption.map Prod.fst) = some 0x0002E132 := by
  decide
/-- Section 2.2, top of the address space, misaligned. -/
theorem test_fetch_wraps :
    ((fetch (machine (ctxOf 0xFFFFFFFE []) 0
      [(0xFFFFFFFC, [0xAA, 0xAA, 0x00, 0x0C]), (0, [0x13, 0xBB, 0xBB, 0xBB])])).toOption.map Prod.fst) =
      some 0x00130C00 := by decide

/-! ### One step of each instruction (95_test_vectors.md sections 1, 5, 6, 7) -/

/-- Scenario 1, with the pc resumed by the dispatcher. -/
def warMachine : State := machine (ctxOf 0x40080000 [(0, 0x1234)]) 0 [(0x40080000, [0x00, 0x0C, 0x13])]

theorem test_step_war_scenario_one :
    nextWith (step warMachine) (fun u => u.inst.var == 0x1234 && u.inst.verdict == some true &&
      u.inst.ctx.pc == 0x40080003 && u.slot 0 == 0x1234) = true := by decide

/-- Section 5, word `0x130370`. -/
def unwatchedMachine : State := machine (ctxOf 0x40080000 [(7, 1)]) 5 [(0x40080000, [0x70, 0x03, 0x13])]

theorem test_step_war_unwatched :
    nextWith (step unwatchedMachine) (fun u => u.inst.var == 5 && u.inst.verdict == some false &&
      u.inst.ctx == unwatchedMachine.inst.ctx && u.mem == unwatchedMachine.mem) = true := by decide

/-- Scenario 2 with the loaded word `m`: `CASW 3, 1, 2`, `x3 = 0x99`, `x1 = 0x1000`, `VAR = 0x55`. -/
def caswMachine (m : Word) : State :=
  machine (ctxOf 0x40080000 [(3, 0x99), (1, 0x1000)]) 0x55
    [(0x40080000, [0x32, 0xE1, 0x02]), (0x1008, bytesOfWord m)]

theorem test_step_casw_scenario_two :
    nextWith (step (caswMachine 0x55)) (fun u => u.mem.word 0x1008 == 0x99 && u.slot 3 == 0x55 && u.slot 1 == 0x1000 &&
      u.inst.var == 0x55 && u.inst.verdict == some true &&
      u.inst.bus == [.read 0x40080000, .read 0x1008, .write 0x1008 0x99]) = true := by decide
theorem test_step_casw_scenario_three :
    nextWith (step (caswMachine 0x77)) (fun u => u.mem.word 0x1008 == 0x77 && u.slot 3 == 0x77 && u.inst.var == 0x55 &&
      u.inst.verdict == some true && u.inst.bus == [.read 0x40080000, .read 0x1008]) = true := by decide

/-- Section 7, word `0x030C00`. -/
def unrecMachine : State := machine (ctxOf 0x40080001 [(0, 7)]) 9 [(0x40080001, [0x00, 0x0C, 0x03])]

theorem test_step_unrec :
    nextWith (step unrecMachine) (fun u => u.inst.verdict == some false && u.inst.ctx == unrecMachine.inst.ctx &&
      u.inst.var == 9 && u.mem == unrecMachine.mem) = true := by decide

/-! ### Faults (95_test_vectors.md sections 2.2 and 6) -/

/-- A map with one word refused to reads or writes, everything else serviced. -/
def mapWithout (a : Nat) (readable writable : Bool) : MemoryMap :=
  { base := a, size := 4, readable := readable, writable := writable } :: MemoryMap.reset

theorem test_fault_first_fetch_word :
    faultOf (step { warMachine with map := mapWithout 0x40080000 false false }) =
      some (.fetchInaccessible 0x40080000) := by decide
/-- Offset 1, next word unreadable: a fault although all three bytes lie in the first word. -/
theorem test_fault_second_fetch_word :
    faultOf (step { unrecMachine with map := mapWithout 0x40080004 false false }) =
      some (.fetchInaccessible 0x40080004) := by decide
/-- Row 8 of section 6: `x1 = 0x1001`. -/
theorem test_fault_misaligned :
    faultOf (step ((caswMachine 0x55).setSlot 1 0x1001)) = some (.dataMisaligned 0x1009) := by decide
/-- Row 10. -/
theorem test_fault_load :
    faultOf (step { caswMachine 0x55 with map := mapWithout 0x1008 false true }) = some (.dataInaccessible 0x1008) := by
  decide
/-- Row 11. -/
theorem test_fault_store :
    faultOf (step { caswMachine 0x55 with map := mapWithout 0x1008 true false }) = some (.dataInaccessible 0x1008) := by
  decide

/-! ### Witnesses: concrete cases that meet the hypotheses of the statements -/

theorem witness_DecodeInvertsEncodeForAllParameters :
    encoding.valid = true ∧ (Instr.casw 15 0 255).wfWith encoding = true ∧
      ({ encoding with warTLsb := 8, warIdLsb := 12, warMask := 0xF000FF, warMatch := 0x100000 }).valid = true := by decide
theorem witness_InstructionBytesDecodeBack : (Instr.unrec 0xFFFFFF).wf = true := by decide
theorem witness_ClassTestsOrdered :
    encoding.isWar ((0x13E000 : Word).setWidth 24) = true ∧
      (encoding.isWar ((0x13E002 : Word).setWidth 24) = false ∧ encoding.isCas ((0x13E002 : Word).setWidth 24) = true) ∧
      (encoding.isWar ((0 : Word).setWidth 24) = false ∧ encoding.isCas ((0 : Word).setWidth 24) = false) := by decide
theorem witness_ClassesDisjoint : encoding.valid = true := by decide
theorem witness_DecoderCornerCases :
    ((0x13FFF0 : InsnWord).extractLsb' 0 4 = 0 ∧ (0x13FFF0 : InsnWord).extractLsb' 16 8 = 0x13) ∧
      ((0xFFEFF2 : InsnWord).extractLsb' 0 4 = 2 ∧ (0xFFEFF2 : InsnWord).extractLsb' 12 4 = 0xE) ∧
      (encoding.warMask.getLsbD 1 = true ∧ encoding.warMask.getLsbD 23 = true) ∧
      (encoding.casMask.getLsbD 1 = true ∧ encoding.casMask.getLsbD 15 = true) := by decide
theorem witness_UnrecognizedWordsCounted : encoding.isWar 0xFFFFFF = false ∧ encoding.isCas 0xFFFFFF = false := by decide
theorem witness_FetchIsAlignmentInvariant :
    warMachine.fetchable = true ∧
      (machine (ctxOf 0xFFFFFFFF []) 0 [(0xFFFFFFFF, [0x00, 0x0C, 0x13])]).fetchable = true ∧
      warMachine.insnAt = (machine (ctxOf 0xFFFFFFFF []) 0 [(0xFFFFFFFF, [0x00, 0x0C, 0x13])]).insnAt := by decide
theorem witness_FetchOnlyReads : ∃ w u, fetch unrecMachine = .ok (w, u) := ⟨_, _, rfl⟩
theorem witness_SlotWriteFrame : (15 : SlotIndex) ≠ 0 := by decide
theorem witness_SlotLaws : (0 : SlotIndex) ≠ 15 := by decide
theorem witness_VarWritePath :
    ∃ u, exec (.war 0) warMachine = .next u ∧ u.inst.var ≠ warMachine.inst.var := ⟨_, rfl, by decide⟩
theorem witness_MemReadAnswersWord :
    aligned 0xFFFFFFFC = true ∧ warMachine.map.readable 0xFFFFFFFC = true ∧
      MemoryMap.readable (mapWithout 0x1008 false true) 0x1008 = false ∧ aligned 0x1008 = true := by decide
theorem witness_MemWriteStoresWord :
    aligned 0xFFFFFFFC = true ∧ warMachine.map.writable 0xFFFFFFFC = true ∧
      MemoryMap.writable (mapWithout 0x1008 true false) 0x1008 = false ∧ aligned 0x1008 = true := by decide
theorem witness_CanonicalMemoryIsUnique :
    Memory.wf [(0, 1), (0xFFFFFFFF, 2)] = true ∧ ∀ a : Word, Memory.byte [(0, 1), (0xFFFFFFFF, 2)] a =
      Memory.byte [(0, 1), (0xFFFFFFFF, 2)] a := ⟨by decide, fun _ => rfl⟩
theorem witness_CaswSwapsOnMatch :
    let s := caswMachine 0x55
    aligned (s.caswAddress 1 2) = true ∧ s.map.readable (s.caswAddress 1 2) = true ∧
      s.mem.word (s.caswAddress 1 2) = s.inst.var ∧ s.map.writable (s.caswAddress 1 2) = true := by decide
theorem witness_CaswReturnsOnMismatch :
    let s := caswMachine 0x77
    aligned (s.caswAddress 1 2) = true ∧ s.map.readable (s.caswAddress 1 2) = true ∧
      s.mem.word (s.caswAddress 1 2) ≠ s.inst.var := by decide
theorem witness_CaswOutcomeShowsInSlot : ∃ u, exec (.casw 3 1 2) (caswMachine 0x55) = .next u :=
  (exists_next (p := fun _ => true) (by decide)).imp fun _ h => h.1
/-- Row 5 of section 6: `CASW 2, 2, 1` with `x2 = 0x2000`. -/
theorem witness_CaswWithTargetAsBase :
    let s := machine (ctxOf 0x40080000 [(2, 0x2000)]) 0x77 [(0x2004, bytesOfWord 0x77)]
    aligned (s.slot 2 + displacement 1) = true ∧ s.map.readable (s.slot 2 + displacement 1) = true ∧
      s.map.writable (s.slot 2 + displacement 1) = true := by decide
theorem witness_CaswFaultsInOrder :
    ((caswMachine 0x55).setSlot 1 0x1003).caswFault 1 2 = some (.dataMisaligned 0x100B) ∧
      State.caswFault { caswMachine 0x55 with map := mapWithout 0x1008 false true } 1 2 =
        some (.dataInaccessible 0x1008) ∧
      State.caswFault { caswMachine 0x55 with map := mapWithout 0x1008 true false } 1 2 =
        some (.dataInaccessible 0x1008) ∧
      State.caswFault { caswMachine 0x77 with map := mapWithout 0x1008 true false } 1 2 = none ∧
      (caswMachine 0x55).idle ∧ (caswMachine 0x55).current = .casw 3 1 2 ∧ (caswMachine 0x55).fetchable = true ∧
      State.fetchable { caswMachine 0x55 with map := mapWithout 0x40080000 false true } = false := by decide
theorem witness_CaswAddressAlignment :
    aligned (((caswMachine 0x55).setSlot 1 0x1003).slot 1) = false ∧ aligned ((caswMachine 0x55).slot 1) = true := by decide
theorem witness_CaswStoresExactlyOnEquality :
    let s := caswMachine 0x55
    let u := { caswMachine 0x55 with map := mapWithout 0x1008 true false }
    (aligned (s.caswAddress 1 2) = true ∧ s.map.readable (s.caswAddress 1 2) = true ∧
      s.mem.word (s.caswAddress 1 2) = s.inst.var ∧ s.map.writable (s.caswAddress 1 2) = true) ∧
    (MemoryMap.readable u.map (State.caswAddress u 1 2) = true ∧ Memory.word u.mem (State.caswAddress u 1 2) = u.inst.var ∧
      MemoryMap.writable u.map (State.caswAddress u 1 2) = false) ∧
    (caswMachine 0x77).mem.word ((caswMachine 0x77).caswAddress 1 2) ≠ (caswMachine 0x77).inst.var := by decide
theorem witness_CaswAlwaysReturnsLoadedWord :
    (∃ u, exec (.casw 3 1 2) (caswMachine 0x55) = .next u ∧ (u.slot 3 == 0x55) = true) ∧
      (∃ u, exec (.casw 3 1 2) (caswMachine 0x77) = .next u ∧ (u.slot 3 == 0x77) = true) :=
  ⟨exists_next (by decide), exists_next (by decide)⟩
theorem witness_FalseVerdictChangesNothing :
    ∃ u, exec (.warUnwatched 7 3) unwatchedMachine = .next u ∧ u.inst.verdict = some false := ⟨_, rfl, rfl⟩
theorem witness_StepRunsDecodedInstruction :
    warMachine.idle ∧ warMachine.fetchable = true ∧ (Instr.war 0).wf = true ∧
      decodeBytes [warMachine.mem.byte warMachine.inst.ctx.pc, warMachine.mem.byte (warMachine.inst.ctx.pc + 1),
        warMachine.mem.byte (warMachine.inst.ctx.pc + 2)] = .ok (.war 0, []) := by decide
theorem witness_PlacedInstructionRunsNext : decodeTableWord 24 0xFFEFF2 = some (.casw 15 15 255) := by decide
theorem witness_InvocationFaultPriority :
    (caswMachine 0x55).idle ∧ (caswMachine 0x55).invocationFault = none ∧
      State.invocationFault { unrecMachine with map := mapWithout 0x40080000 false false } =
        some (.fetchInaccessible 0x40080000) ∧
      State.invocationFault { unrecMachine with map := mapWithout 0x40080004 false false } =
        some (.fetchInaccessible 0x40080004) ∧
      ((caswMachine 0x55).setSlot 1 0x1002).invocationFault = some (.dataMisaligned 0x100A) := by decide
theorem witness_InvocationFootprint : (caswMachine 0x55).idle ∧ ∃ u, step (caswMachine 0x55) = .next u :=
  ⟨by decide, (exists_next (p := fun _ => true) (by decide)).imp fun _ h => h.1⟩
theorem witness_EveryAccessIsAligned :
    ∃ u, handle (caswMachine 0x55) = .next u ∧ (u.inst.bus.length == 3) = true := exists_next (by decide)
theorem witness_InvocationNeverWritesPc :
    ∃ u, complete { warMachine with inst := { warMachine.inst with flight := some (.fetched 0x130C00) } } = .next u :=
  ⟨_, rfl⟩
theorem witness_InvocationFrame :
    (∃ u, handle (caswMachine 0x55) = .next u ∧
      (u.slot 3 != (caswMachine 0x55).slot 3 && u.mem.byte 0x1008 != (caswMachine 0x55).mem.byte 0x1008) = true) ∧
    (∃ u, handle warMachine = .next u ∧ (u.inst.var != warMachine.inst.var) = true) :=
  ⟨exists_next (by decide), exists_next (by decide)⟩
theorem witness_WatchedWarFromBytes :
    warMachine.idle ∧ warMachine.fetchable = true ∧
      warMachine.mem.byte warMachine.inst.ctx.pc = (0 : SlotIndex) ++ (0 : BitVec 4) ∧
      warMachine.mem.byte (warMachine.inst.ctx.pc + 1) = 12 ∧
      warMachine.mem.byte (warMachine.inst.ctx.pc + 2) = 0x13 := by decide
theorem witness_CaswFromBytes :
    let s := caswMachine 0x77
    s.idle ∧ s.fetchable = true ∧ s.mem.byte s.inst.ctx.pc = (3 : SlotIndex) ++ (2 : BitVec 4) ∧
      s.mem.byte (s.inst.ctx.pc + 1) = (0xE : BitVec 4) ++ (1 : SlotIndex) ∧ s.mem.byte (s.inst.ctx.pc + 2) = 2 ∧
      aligned (s.slot 1) = true ∧ s.map.readable (s.caswAddress 1 2) = true ∧
      s.map.writable (s.caswAddress 1 2) = true := by decide
theorem witness_StepResumesAfterTrue : warMachine.idle ∧ ∃ v, handle warMachine = .next v :=
  ⟨by decide, (exists_next (p := fun _ => true) (by decide)).imp fun _ h => h.1⟩
theorem witness_UnhandledTrapRepeats :
    unrecMachine.idle ∧ ∃ u, step unrecMachine = .next u ∧ (u.inst.verdict == some false) = true :=
  ⟨by decide, exists_next (by decide)⟩
/-- Two machines that differ in all that an invocation does not read. -/
theorem witness_InvocationDependsOnlyOnItsInputs :
    let s := caswMachine 0x55
    let t : State := { s with
      inst := { s.inst with verdict := some false, bus := [.read 0], core := 4 }, others := [Instance.reset 1] }
    s.idle ∧ t.idle ∧ s.inst.ctx = t.inst.ctx ∧ s.inst.var = t.inst.var ∧ s.mem = t.mem ∧ s.map = t.map ∧ s ≠ t := by
  decide
theorem witness_StepKeepsInvariant :
    (caswMachine 0x55).inv = true ∧ ∃ u, step (caswMachine 0x55) = .next u :=
  ⟨by decide, (exists_next (p := fun _ => true) (by decide)).imp fun _ h => h.1⟩
theorem witness_StepKeepsMapAndCores :
    ∃ u, step { warMachine with others := [Instance.reset 1], inputs := [.select 1] } = .next u ∧
      (u.cores == [1, 0]) = true := exists_next (by decide)
theorem witness_VarChangesOnlyByWatchedWarOrReset :
    warMachine.cores.Nodup ∧
      (∃ u, step warMachine = .next u ∧ (u.varOf 0 != warMachine.varOf 0) = true) ∧
      (∃ u, step { unrecMachine with inputs := [.reset] } = .next u ∧ (u.varOf 0 != unrecMachine.varOf 0) = true) :=
  ⟨by decide, exists_next (by decide), exists_next (by decide)⟩
theorem witness_OtherCoresUnseen :
    warMachine.inputs = [] ∧ ∃ u, step warMachine = .next u :=
  ⟨rfl, (exists_next (p := fun _ => true) (by decide)).imp fun _ h => h.1⟩
theorem witness_PausedInvocationEndsAlike :
    (caswMachine 0x55).inputs = [] ∧
      ∃ u, step { caswMachine 0x55 with inputs := [.event] } = .next u ∧ u.inst.flight.isSome = true :=
  ⟨rfl, exists_next (by decide)⟩
theorem witness_ForeignWriteIsOverwritten :
    let s := caswMachine 0x55
    s.idle ∧ aligned s.inst.ctx.pc = true ∧ s.fetchable = true ∧ s.current = .casw 3 1 2 ∧
      aligned (s.caswAddress 1 2) = true ∧ s.map.readable (s.caswAddress 1 2) = true ∧
      s.map.writable (s.caswAddress 1 2) = true ∧ s.mem.word (s.caswAddress 1 2) = s.inst.var := by decide
theorem witness_ProgramsOfOneCoreShareVar :
    let c := ctxOf 0x40080000 [(0, 0x77)]
    let s := { warMachine with inputs := [.capture true c] }
    s.inst.flight = none ∧ State.fetchable { s with inst := { s.inst with ctx := c } } = true ∧
      State.current { s with inst := { s.inst with ctx := c } } = .war 0 := by decide
theorem witness_TrapEntryLendsContext :
    ({ warMachine with inputs := [.capture true (ctxOf 4 []), .event] } : State).inputs =
      .capture true (ctxOf 4 []) :: [.event] ∧ warMachine.inst.flight = none := ⟨rfl, rfl⟩
/-- An invocation in progress, and none. -/
theorem witness_ContractBreachesRefused :
    (warMachine.setFlight (some (.fetched 0x130C00))).inst.flight.isSome = true ∧ warMachine.inst.flight = none := by
  decide
theorem witness_InstanceResetClearsVarOnly :
    ({ unrecMachine with inputs := [.reset, .event] } : State).inputs = .reset :: [.event] ∧
      unrecMachine.inst.flight = none ∧ unrecMachine.inst.var ≠ 0 := by decide
theorem witness_CoreSelection :
    let s := { warMachine with others := [Instance.reset 1], inputs := [.select 1] }
    0 ∈ s.cores ∧ 1 ∈ s.cores ∧ 2 ∉ s.cores ∧ s.inputs = [.select 1] := by decide
theorem witness_AgentWriteIsOneEvent :
    ({ warMachine with inputs := [.agentWrite 0xFFFFFFFC (bytesOfWord 0x12345678)] } : State).inputs =
      .agentWrite 0xFFFFFFFC (bytesOfWord 0x12345678) :: [] := rfl

end Sys2Proof.Tests
end

section
/-! The fetch answers the instruction at the pc (R70, R72, R76). -/

namespace Sys2Proof.Machine

/-! ### Fetch addresses -/

theorem ofNat_byteOffset (a : Word) : BitVec.ofNat 32 (byteOffset a) = a &&& 3 := by
  rw [byteOffset, BitVec.ofNat_toNat]
  apply BitVec.eq_of_getLsbD_eq
  intro i hi
  interval_cases i <;> simp

theorem alignedBase_add_byteOffset (a : Word) : alignedBase a + BitVec.ofNat 32 (byteOffset a) = a := by
  rw [ofNat_byteOffset, alignedBase, BitVec.add_eq_or_of_and_eq_zero]
  · rw [← BitVec.and_or_distrib_left]
    exact BitVec.and_allOnes
  · apply BitVec.eq_of_getLsbD_eq
    intro i hi
    interval_cases i <;> simp

theorem byteOffset_lt (a : Word) : byteOffset a < 4 := (a.extractLsb' 0 2).isLt

theorem byteOffset_eq_zero {a : Word} (h : aligned a = true) : byteOffset a = 0 := by
  rw [byteOffset, eq_of_beq h]
  rfl

/-! ### The bits of words and instructions in memory (R32, R51) -/

theorem Memory.getLsbD_word (m : Memory) (a : Word) {i : Nat} (hi : i < 32) :
    (m.word a).getLsbD i = (m.byte (a + BitVec.ofNat 32 (i / 8))).getLsbD (i % 8) := by
  change (m.byte (a + 3) ++ m.byte (a + 2) ++ m.byte (a + 1) ++ m.byte a).getLsbD i = _
  simp only [BitVec.getLsbD_append]
  interval_cases i <;> simp

theorem State.getLsbD_insnAt (s : State) {i : Nat} (hi : i < 24) :
    s.insnAt.getLsbD i = (s.mem.byte (s.inst.ctx.pc + BitVec.ofNat 32 (i / 8))).getLsbD (i % 8) := by
  change (s.mem.byte (s.inst.ctx.pc + 2) ++ s.mem.byte (s.inst.ctx.pc + 1) ++ s.mem.byte s.inst.ctx.pc).getLsbD i = _
  simp only [BitVec.getLsbD_append]
  interval_cases i <;> simp

/-- The 64-bit buffer of a fetch is the eight bytes from the lower word's address on. -/
theorem Memory.getLsbD_buffer (m : Memory) (a : Word) {i : Nat} (hi : i < 64) :
    (m.word (a + 4) ++ m.word a).getLsbD i = (m.byte (a + BitVec.ofNat 32 (i / 8))).getLsbD (i % 8) := by
  rw [BitVec.getLsbD_append]
  split
  · next h => exact m.getLsbD_word a h
  · next h =>
    obtain ⟨j, rfl⟩ := Nat.exists_eq_add_of_le (Nat.le_of_not_lt h)
    rw [Nat.add_sub_cancel_left, m.getLsbD_word (a + 4) (by omega), BitVec.add_assoc,
      show (4 : Word) = BitVec.ofNat 32 4 from rfl, ← BitVec.ofNat_add,
      show (32 + j) / 8 = 4 + j / 8 by omega, show (32 + j) % 8 = j % 8 by omega]

/-! ### The fetched word -/

/-- The word assembled from the two words that flank the pc is the three bytes at the pc (R70, R72). -/
theorem State.assemble_eq_insnAt (s : State) :
    assemble (s.mem.word (alignedBase s.inst.ctx.pc)) (s.mem.word (nextAligned s.inst.ctx.pc))
      (byteOffset s.inst.ctx.pc) = s.insnAt.setWidth 32 := by
  rw [assemble]
  congr 1
  apply BitVec.eq_of_getLsbD_eq
  intro i hi
  have hoff := byteOffset_lt s.inst.ctx.pc
  have hpc : alignedBase s.inst.ctx.pc + BitVec.ofNat 32 ((8 * byteOffset s.inst.ctx.pc + i) / 8) =
      s.inst.ctx.pc + BitVec.ofNat 32 (i / 8) := by
    rw [show (8 * byteOffset s.inst.ctx.pc + i) / 8 = byteOffset s.inst.ctx.pc + i / 8 by omega,
      BitVec.ofNat_add, ← BitVec.add_assoc, alignedBase_add_byteOffset]
  rw [BitVec.getLsbD_setWidth, BitVec.getLsbD_ushiftRight, nextAligned, s.mem.getLsbD_buffer _ (by omega), hpc,
    s.getLsbD_insnAt hi, Nat.mul_add_mod]
  simp [hi]

/-- At an aligned pc the lower word alone holds the three bytes (R73). -/
theorem assemble_zero (w0 w1 : Word) : assemble w0 w1 0 = assembleAligned w0 := by
  rw [assemble, assembleAligned]
  congr 1
  apply BitVec.eq_of_getLsbD_eq
  intro i hi
  have hbuf : (w1 ++ w0).getLsbD i = w0.getLsbD i := by rw [BitVec.getLsbD_append, if_pos (by omega)]
  simpa [hi] using hbuf

/-- All that a fetch can answer with no fault: the three bytes at the pc, and its memory events recorded (R72, R76). -/
theorem fetch_ok {s u : State} {w : Word} (h : fetch s = .ok (w, u)) :
    w = s.insnAt.setWidth 32 ∧
      u = { s with inst := { s.inst with bus := s.inst.bus ++ fetchEvents s.inst.ctx.pc } } := by
  rw [fetch_eq] at h
  split at h
  · split at h
    · next ha =>
      cases h
      refine ⟨?_, by rw [fetchEvents, if_pos ha]; rfl⟩
      rw [← s.assemble_eq_insnAt, byteOffset_eq_zero ha, assemble_zero]
    · next ha =>
      split at h
      · cases h
        refine ⟨s.assemble_eq_insnAt, ?_⟩
        rw [fetchEvents, if_neg ha]
        simp [State.record]
      · cases h
  · cases h

end Sys2Proof.Machine
end

section
/-! `VAR` changes only by the watched WAR or by a reset of its own core (R18). -/

namespace Sys2Proof.Machine

/-! ### What an invocation does to `VAR` -/

/-- From `s` to `u` the acting core and the other cores' instances are kept, and `VAR` is kept unless the instruction `i` is a
watched WAR, which sets it to its slot. -/
structure VarEffect (i : Option Instr) (s u : State) : Prop where
  core : u.inst.core = s.inst.core
  others : u.others = s.others
  var : u.inst.var = s.inst.var ∨ ∃ t, i = some (.war t) ∧ u.inst.var = s.slot t

/-- The effect is the same from a state that differs from `s` only in what `VarEffect` does not read. -/
theorem VarEffect.of_start {i : Option Instr} {s t u : State} (h : VarEffect i t u) (hcore : t.inst.core = s.inst.core)
    (hothers : t.others = s.others) (hvar : t.inst.var = s.inst.var) (hctx : t.inst.ctx = s.inst.ctx) :
    VarEffect i s u where
  core := h.core.trans hcore
  others := h.others.trans hothers
  var := h.var.imp (·.trans hvar) fun ⟨k, hi, hk⟩ => ⟨k, hi, hk.trans (State.slot_of_ctx hctx k)⟩

/-- The dispatcher's resumption keeps every `VAR`. -/
theorem VarEffect.of_dispatch {i : Option Instr} {o : Host.Outcome State Fault Refusal} {s u : State}
    (h : dispatch o = .next u) (ho : ∀ v, o = .next v → VarEffect i s v) : VarEffect i s u := by
  obtain ⟨v, hv, rfl⟩ := dispatch_next.1 h
  have e := ho v hv
  split
  · exact ⟨e.core, e.others, e.var⟩
  · exact e

theorem caswFinish_varEffect {i : Option Instr} {l : Loaded} {s u : State} (h : caswFinish l s = .next u) :
    VarEffect i s u := by
  rw [caswFinish_eq] at h
  split at h
  · split at h
    · cases h
      exact ⟨rfl, rfl, .inl rfl⟩
    · cases h
  · cases h
    exact ⟨rfl, rfl, .inl rfl⟩

theorem execCasw_varEffect {i : Option Instr} {t b : SlotIndex} {off : BitVec 8} {s u : State}
    (h : execCasw t b off s = .next u) : VarEffect i s u := by
  unfold execCasw at h
  split at h
  · cases h
  · next hl =>
    obtain ⟨-, -, -, rfl⟩ := caswLoad_ok.1 hl
    exact (caswFinish_varEffect h).of_start rfl rfl rfl rfl

/-- Of the rows of the opcode table, only the watched WAR changes `VAR` (R95, R110). -/
theorem exec_varEffect {i : Instr} {s u : State} (h : exec i s = .next u) : VarEffect (some i) s u := by
  cases i with
  | war t => cases h; exact ⟨rfl, rfl, .inr ⟨t, rfl, rfl⟩⟩
  | warUnwatched t id => cases h; exact ⟨rfl, rfl, .inl rfl⟩
  | casw t b off => exact execCasw_varEffect h
  | unrec w => cases h; exact ⟨rfl, rfl, .inl rfl⟩

theorem handle_varEffect {s u : State} (h : handle s = .next u) : VarEffect (some s.current) s u := by
  unfold handle at h
  split at h
  · cases h
  · next hf =>
    obtain ⟨rfl, rfl⟩ := fetch_ok hf
    exact (exec_varEffect h).of_start rfl rfl rfl rfl

/-- The rest of an invocation, from whichever stage it stands at, has the effect of the instruction still to be applied. -/
theorem complete_varEffect {s u : State} (h : complete s = .next u) : VarEffect s.running s u := by
  unfold complete at h
  unfold State.running
  cases hfl : s.inst.flight with
  | none =>
    rw [hfl] at h
    exact handle_varEffect h
  | some f =>
    rw [hfl] at h
    cases f with
    | firstWord w0 =>
      dsimp only at h
      split at h
      · cases h
      · next hf =>
        obtain ⟨-, rfl, rfl⟩ := fetchSecond_ok.1 hf
        exact (exec_varEffect h).of_start rfl rfl rfl rfl
    | fetched word => exact (exec_varEffect h).of_start rfl rfl rfl rfl
    | loaded l => exact (caswFinish_varEffect h).of_start rfl rfl rfl rfl

theorem eventAfterFetch_varEffect {word : Word} {s u : State} (h : eventAfterFetch word s = .next u) :
    VarEffect (some (decode word)) s u := by
  unfold eventAfterFetch at h
  cases hd : decode word with
  | casw t b off =>
    simp only [hd] at h
    split at h
    · cases h
    · next hl =>
      obtain ⟨-, -, -, rfl⟩ := caswLoad_ok.1 hl
      cases h
      exact ⟨rfl, rfl, .inl rfl⟩
  | war t => simp only [hd] at h; exact .of_dispatch h fun _ => exec_varEffect
  | warUnwatched t id => simp only [hd] at h; exact .of_dispatch h fun _ => exec_varEffect
  | unrec w => simp only [hd] at h; exact .of_dispatch h fun _ => exec_varEffect

theorem oneEvent_varEffect {s u : State} (h : oneEvent s = .next u) : VarEffect s.running s u := by
  unfold oneEvent at h
  cases hfl : s.inst.flight with
  | none =>
    simp only [hfl] at h
    split at h
    · cases h
    · next hf =>
      obtain ⟨-, -, rfl⟩ := fetchFirst_ok.1 hf
      split at h <;> cases h <;> exact ⟨rfl, rfl, .inl rfl⟩
  | some f =>
    rw [hfl] at h
    cases f with
    | firstWord w0 =>
      dsimp only at h
      split at h
      · cases h
      · next hf =>
        obtain ⟨-, -, rfl⟩ := fetchSecond_ok.1 hf
        cases h
        exact ⟨rfl, rfl, .inl rfl⟩
    | fetched word =>
      rw [State.running, hfl]
      exact (eventAfterFetch_varEffect h).of_start rfl rfl rfl rfl
    | loaded l => exact .of_dispatch h fun _ hv => (caswFinish_varEffect hv).of_start rfl rfl rfl rfl

/-! ### `VAR[k]` of the whole machine (R17, R176) -/

/-- Where no two cores are one, `VAR[k]` is the `VAR` of whichever of the machine's instances is of core `k`. -/
theorem State.varOf_eq_some {s : State} (hn : s.cores.Nodup) {k : Nat} {v : Word} :
    s.varOf k = some v ↔ ∃ i ∈ s.instances, i.core = k ∧ i.var = v := by
  unfold State.varOf
  rw [Option.map_eq_some_iff]
  constructor
  · rintro ⟨i, hi, hv⟩
    exact ⟨i, List.mem_of_find?_eq_some hi, by simpa using List.find?_some hi, hv⟩
  · rintro ⟨i, hi, hk, hv⟩
    have hfound : (s.instances.find? fun i => i.core == k).isSome := List.find?_isSome.2 ⟨i, hi, by simpa using hk⟩
    obtain ⟨j, hj⟩ := Option.isSome_iff_exists.1 hfound
    have hjk : j.core = k := by simpa using List.find?_some hj
    have hji : j = i := List.inj_on_of_nodup_map hn (List.mem_of_find?_eq_some hj) hi (hjk.trans hk.symm)
    exact ⟨j, hj, hji ▸ hv⟩

/-- A rearrangement of the machine's instances changes no `VAR[k]`. -/
theorem State.varOf_eq_of_perm {s u : State} (hn : s.cores.Nodup) (hp : u.instances.Perm s.instances) (k : Nat) :
    u.varOf k = s.varOf k := by
  have hnu : u.cores.Nodup := (hp.map Instance.core).nodup_iff.2 hn
  apply Option.ext
  intro v
  simp only [State.varOf_eq_some hn, State.varOf_eq_some hnu, hp.mem_iff]

/-- The selection of a core rearranges the machine's instances. -/
theorem selectCore_instances_perm {s u : State} {k : Nat} (h : selectCore s k = .next u) :
    u.instances.Perm s.instances := by
  obtain ⟨-, rfl⟩ | ⟨-, i, before, after, -, ho, rfl⟩ := selectCore_next h
  · rfl
  · rw [State.instances, State.instances, ho]
    calc List.Perm (i :: (before ++ s.inst :: after)) (i :: s.inst :: (before ++ after)) := List.perm_middle.cons i
      List.Perm _ (s.inst :: i :: (before ++ after)) := .swap ..
      List.Perm _ (s.inst :: (before ++ i :: after)) := List.perm_middle.symm.cons s.inst

theorem State.varOf_eq (s : State) (k : Nat) :
    s.varOf k = if s.inst.core = k then some s.inst.var
      else (s.others.find? fun i => i.core == k).map Instance.var := by
  unfold State.varOf State.instances
  by_cases h : s.inst.core = k <;> simp [h]

/-- Where the acting core and the other cores' instances are kept, only the acting core's `VAR[k]` can change. -/
theorem State.varOf_changed {s u : State} {k : Nat} (hcore : u.inst.core = s.inst.core) (hothers : u.others = s.others)
    (h : u.varOf k ≠ s.varOf k) : k = s.inst.core ∧ u.varOf k = some u.inst.var ∧ u.inst.var ≠ s.inst.var := by
  rw [u.varOf_eq, s.varOf_eq, hcore, hothers] at h
  rw [u.varOf_eq, hcore]
  split at h
  · next hk => exact ⟨hk.symm, if_pos hk, fun e => h (congrArg some e)⟩
  · exact absurd rfl h

/-- An invocation changes `VAR[k]` only as the watched WAR of core `k`. -/
theorem VarEffect.varOf_changed {i : Option Instr} {s u : State} {k : Nat} (e : VarEffect i s u)
    (h : u.varOf k ≠ s.varOf k) : k = s.inst.core ∧ ∃ t, i = some (.war t) ∧ u.varOf k = some (s.slot t) := by
  obtain ⟨hk, hu, hne⟩ := State.varOf_changed e.core e.others h
  obtain ⟨t, hi, hv⟩ := e.var.resolve_left hne
  exact ⟨hk, t, hi, hu.trans (congrArg some hv)⟩

/-- An input changes `VAR[k]` only as a reset of core `k`, or as the event in which a watched WAR of core `k` ends. -/
theorem environment_varOf_changed {i : Input} {s u : State} {k : Nat} (hn : s.cores.Nodup)
    (h : environment i s = .next u) (hne : u.varOf k ≠ s.varOf k) :
    k = s.inst.core ∧
      ((i = .reset ∧ u.varOf k = some 0) ∨ (∃ t, s.running = some (.war t) ∧ u.varOf k = some (s.slot t))) := by
  cases i with
  | capture illegal ctx =>
    simp only [environment] at h
    split at h
    · cases h
    · split at h
      · cases h
        obtain ⟨-, -, hvar⟩ := State.varOf_changed (takeTrap_core s ctx) (takeTrap_others s ctx) hne
        exact absurd (takeTrap_var s ctx) hvar
      · cases h
  | select c => exact absurd (State.varOf_eq_of_perm hn (selectCore_instances_perm h) k) hne
  | event =>
    obtain ⟨hk, hwar⟩ := (oneEvent_varEffect h).varOf_changed hne
    exact ⟨hk, .inr hwar⟩
  | agentWrite a bytes =>
    cases h
    exact absurd rfl hne
  | reset =>
    simp only [environment] at h
    split at h
    · cases h
    · cases h
      obtain ⟨hk, hu, -⟩ := State.varOf_changed (resetInstance_core s) (resetInstance_others s) hne
      exact ⟨hk, .inl ⟨rfl, hu⟩⟩

/-- Settles O46, by the two kinds of step: an invocation run to its end, and an input of the environment. -/
theorem varChangesOnlyByWatchedWarOrReset : Obligations.VarChangesOnlyByWatchedWarOrReset := by
  intro s u k hn h hne
  unfold step at h
  split at h
  · have e : VarEffect s.running s u := .of_dispatch h fun _ => complete_varEffect
    obtain ⟨hk, hwar⟩ := e.varOf_changed hne
    exact ⟨hk, .inr hwar⟩
  · next i rest hin =>
    obtain ⟨hk, ⟨rfl, hu⟩ | hwar⟩ := environment_varOf_changed (s := { s with inputs := rest }) hn h hne
    · exact ⟨hk, .inl ⟨rest, hin, hu⟩⟩
    · exact ⟨hk, .inr hwar⟩

end Sys2Proof.Machine
end

section
/-! Alignment of addresses, and the memory footprint of an invocation (R31, R35, R39). -/

namespace Sys2Proof.Machine

/-! ### Alignment (R31, R33, R35) -/

/-- An address is a multiple of 4 when it vanishes modulo 4; truncation commutes with the address arithmetic. -/
theorem aligned_eq (a : Word) : aligned a = (a.setWidth 2 == 0#2) := by
  rw [aligned, BitVec.setWidth_eq_extractLsb' (by decide)]
  rfl

theorem aligned_add {a d : Word} (hd : aligned d = true) : aligned (a + d) = aligned a := by
  rw [aligned_eq] at hd
  rw [aligned_eq, aligned_eq, BitVec.setWidth_add _ _ (by decide), eq_of_beq hd, BitVec.add_zero]

theorem aligned_displacement (off : BitVec 8) : aligned (displacement off) = true := by
  have hfour : (4 : Word).setWidth 2 = 0#2 := rfl
  rw [aligned_eq, displacement, BitVec.setWidth_mul _ _ (by decide), hfour, BitVec.mul_zero]
  rfl

theorem aligned_alignedBase (a : Word) : aligned (alignedBase a) = true := by
  have hmask : (0xFFFFFFFC : Word).setWidth 2 = 0#2 := rfl
  rw [aligned_eq, alignedBase, BitVec.setWidth_and, hmask, BitVec.and_zero]
  rfl

theorem aligned_nextAligned (a : Word) : aligned (nextAligned a) = true :=
  (aligned_add rfl).trans (aligned_alignedBase a)

theorem State.aligned_caswAddress (s : State) (b : SlotIndex) (off : BitVec 8) :
    aligned (s.caswAddress b off) = aligned (s.slot b) :=
  aligned_add (aligned_displacement off)

/-- Settles O27: the displacement is a multiple of 4, and the alignment check precedes the load. -/
theorem caswAddressAlignment : Obligations.CaswAddressAlignment := by
  intro t b off s
  refine ⟨s.aligned_caswAddress b off, fun hb => ?_⟩
  have hload : caswLoad t b off s = .error (.dataMisaligned (s.caswAddress b off)) :=
    caswLoad_error.2 (.inl ⟨(s.aligned_caswAddress b off).trans hb, rfl⟩)
  rw [exec, execCasw, hload]
  rfl

/-! ### The events that an instruction adds to the record (R39) -/

/-- The second half of a CASW adds its store where the loaded word equals `VAR`, and nothing else (R123). -/
theorem caswFinish_bus {l : Loaded} {s u : State} (h : caswFinish l s = .next u) :
    u.inst.bus = s.inst.bus ++ if l.oldValue = s.inst.var then [.write l.address l.newValue] else [] := by
  rw [caswFinish_eq] at h
  split at h
  · next heq =>
    rw [if_pos heq]
    split at h
    · cases h; rfl
    · cases h
  · next hne =>
    rw [if_neg hne, List.append_nil]
    cases h; rfl

/-- A CASW that completes has an aligned address, and adds exactly its data events (R35, R39). -/
theorem execCasw_footprint {t b : SlotIndex} {off : BitVec 8} {s u : State} (h : execCasw t b off s = .next u) :
    aligned (s.caswAddress b off) = true ∧ u.inst.bus = s.inst.bus ++ s.dataEvents (.casw t b off) := by
  unfold execCasw at h
  split at h
  · cases h
  · next hl =>
    obtain ⟨ha, -, rfl, rfl⟩ := caswLoad_ok.1 hl
    refine ⟨ha, ?_⟩
    rw [caswFinish_bus h, State.dataEvents]
    by_cases heq : s.mem.word (s.caswAddress b off) = s.inst.var <;> simp [heq]

theorem exec_bus {i : Instr} {s u : State} (h : exec i s = .next u) :
    u.inst.bus = s.inst.bus ++ s.dataEvents i := by
  cases i with
  | casw t b off => exact (execCasw_footprint h).2
  | war t => cases h; exact (List.append_nil _).symm
  | warUnwatched t id => cases h; exact (List.append_nil _).symm
  | unrec w => cases h; exact (List.append_nil _).symm

/-! ### The whole invocation -/

@[simp] theorem State.dataEvents_afterFetch (s : State) (i : Instr) : s.afterFetch.dataEvents i = s.dataEvents i := by
  cases i <;> rfl

/-- An invocation that completes is the effect of the instruction at the pc, begun after the fetch (R101). -/
theorem handle_next {s u : State} (h : handle s = .next u) : exec s.current s.afterFetch = .next u := by
  unfold handle at h
  split at h
  · cases h
  · next hf =>
    obtain ⟨rfl, rfl⟩ := fetch_ok hf
    exact h

theorem handle_bus {s u : State} (h : handle s = .next u) :
    u.inst.bus = fetchEvents s.inst.ctx.pc ++ s.dataEvents s.current := by
  rw [exec_bus (handle_next h), State.afterFetch_bus, State.dataEvents_afterFetch]

/-- With no input pending and no invocation in progress, a step is one whole invocation and the dispatcher's part. -/
theorem step_of_idle {s : State} (hidle : s.idle) : step s = dispatch (handle s) := by
  obtain ⟨hin, hfl⟩ := hidle
  simp only [step, hin, complete, hfl]

/-- Settles O34: the invocation records its footprint, and the dispatcher's resumption leaves the record as it is. -/
theorem invocationFootprint : Obligations.InvocationFootprint := by
  intro s u hidle h
  rw [step_of_idle hidle] at h
  obtain ⟨v, hv, rfl⟩ := dispatch_next.1 h
  rw [← handle_bus hv]
  split <;> rfl

/-! ### Every event is at an aligned word (R31) -/

/-- The address of a memory event. -/
def BusEvent.addr : BusEvent → Word
  | .read a => a
  | .write a _ => a

theorem aligned_of_mem_fetchEvents {pc : Word} {e : BusEvent} (h : e ∈ fetchEvents pc) : aligned e.addr = true := by
  have hcases : e = .read (alignedBase pc) ∨ e = .read (nextAligned pc) := by
    unfold fetchEvents at h
    split at h
    · exact .inl (List.mem_singleton.1 h)
    · simpa using h
  obtain rfl | rfl := hcases
  · exact aligned_alignedBase pc
  · exact aligned_nextAligned pc

/-- Both data events of a CASW are at its effective address (R121, R123). -/
theorem State.addr_of_mem_dataEvents_casw {s : State} {t b : SlotIndex} {off : BitVec 8} {e : BusEvent}
    (h : e ∈ s.dataEvents (.casw t b off)) : e.addr = s.caswAddress b off := by
  have hcases : e = .read (s.caswAddress b off) ∨ e = .write (s.caswAddress b off) (s.slot t) := by
    dsimp only [State.dataEvents] at h
    split at h
    · simpa using h
    · exact .inl (List.mem_singleton.1 h)
  obtain rfl | rfl := hcases <;> rfl

theorem exec_dataEvents_aligned {i : Instr} {s u : State} (h : exec i s = .next u) {e : BusEvent}
    (he : e ∈ s.dataEvents i) : aligned e.addr = true := by
  cases i with
  | casw t b off => rw [State.addr_of_mem_dataEvents_casw he]; exact (execCasw_footprint h).1
  | war t => cases he
  | warUnwatched t id => cases he
  | unrec w => cases he

theorem handle_bus_aligned {s u : State} (h : handle s = .next u) {e : BusEvent} (he : e ∈ u.inst.bus) :
    aligned e.addr = true := by
  rw [handle_bus h] at he
  obtain hf | hd := List.mem_append.1 he
  · exact aligned_of_mem_fetchEvents hf
  · exact exec_dataEvents_aligned (handle_next h) (by rwa [State.dataEvents_afterFetch])

/-- Settles O35: the footprint is the fetch's events and the data events, and each of them is at an aligned word. -/
theorem everyAccessIsAligned : Obligations.EveryAccessIsAligned := by
  rintro s u h a (hread | ⟨v, hwrite⟩)
  · exact handle_bus_aligned h hread
  · exact handle_bus_aligned h hwrite

end Sys2Proof.Machine
end

section
/-! The unrecognized words, and how many of the instruction words they are (R58). -/

namespace Sys2Proof

/-! ### The decoder's answer on a word of neither class -/

/-- The decoder's two tests, in its order (R82): it answers Unrecognized exactly when both fail. -/
theorem decodeShape_eq_unrecognized_iff {p : EncodingParams} {word : Word} :
    decodeShape p word = .unrecognized ↔
      ¬ (p.isWar (word.setWidth 24) = true ∨ p.isCas (word.setWidth 24) = true) := by
  unfold decodeShape
  dsimp only
  split
  · next hwar => simp [hwar]
  · next hwar => split <;> next hcas => simp [hwar, hcas]

/-! ### The default class tests, field by field (R52, R54, R55) -/

theorem fieldOf_and (x y : InsnWord) (lsb n : Nat) :
    fieldOf (x &&& y) lsb n = fieldOf x lsb n &&& fieldOf y lsb n :=
  BitVec.extractLsb'_and

/-- An instruction word is its bits 23:16, 15:12, 11:4 and 3:0. -/
theorem eq_iff_fields {x y : InsnWord} :
    x = y ↔ fieldOf x 16 8 = fieldOf y 16 8 ∧ fieldOf x 12 4 = fieldOf y 12 4 ∧
      fieldOf x 4 8 = fieldOf y 4 8 ∧ fieldOf x 0 4 = fieldOf y 0 4 := by
  have parts (w : InsnWord) : fieldOf w 16 8 ++ (fieldOf w 12 4 ++ (fieldOf w 4 8 ++ fieldOf w 0 4)) = w := by
    simp only [fieldOf, BitVec.extractLsb'_append_extractLsb'_eq_extractLsb', BitVec.extractLsb'_eq_self]
  constructor
  · rintro rfl
    exact ⟨rfl, rfl, rfl, rfl⟩
  · rintro ⟨h16, h12, h4, h0⟩
    rw [← parts x, ← parts y, h16, h12, h4, h0]

theorem encoding_isWar_iff {w : InsnWord} :
    encoding.isWar w = true ↔ fieldOf w 16 8 = 0x13 ∧ fieldOf w 0 4 = 0 := by
  have h16 : fieldOf encoding.warMask 16 8 = BitVec.allOnes 8 := rfl
  have h12 : fieldOf encoding.warMask 12 4 = 0#4 := rfl
  have h4 : fieldOf encoding.warMask 4 8 = 0#8 := rfl
  have h0 : fieldOf encoding.warMask 0 4 = BitVec.allOnes 4 := rfl
  rw [EncodingParams.isWar, beq_iff_eq, eq_iff_fields]
  simp only [fieldOf_and, h16, h12, h4, h0, BitVec.and_allOnes, BitVec.and_zero]
  exact ⟨fun ⟨hhigh, _, _, hlow⟩ => ⟨hhigh, hlow⟩, fun ⟨hhigh, hlow⟩ => ⟨hhigh, rfl, rfl, hlow⟩⟩

theorem encoding_isCas_iff {w : InsnWord} :
    encoding.isCas w = true ↔ fieldOf w 12 4 = 0xE ∧ fieldOf w 0 4 = 2 := by
  have h16 : fieldOf encoding.casMask 16 8 = 0#8 := rfl
  have h12 : fieldOf encoding.casMask 12 4 = BitVec.allOnes 4 := rfl
  have h4 : fieldOf encoding.casMask 4 8 = 0#8 := rfl
  have h0 : fieldOf encoding.casMask 0 4 = BitVec.allOnes 4 := rfl
  rw [EncodingParams.isCas, beq_iff_eq, eq_iff_fields]
  simp only [fieldOf_and, h16, h12, h4, h0, BitVec.and_allOnes, BitVec.and_zero]
  exact ⟨fun ⟨_, hmid, _, hlow⟩ => ⟨hmid, hlow⟩, fun ⟨hmid, hlow⟩ => ⟨rfl, hmid, rfl, hlow⟩⟩

/-! ### The classes as sets of numbers -/

/-- The numbers below 2^24 that a property of instruction words holds of. -/
def numbersOf (q : InsnWord → Bool) : Finset Nat :=
  (Finset.range (2 ^ 24)).filter fun n => q (BitVec.ofNat 24 n) = true

theorem mem_numbersOf {q : InsnWord → Bool} {n : Nat} :
    n ∈ numbersOf q ↔ n < 2 ^ 24 ∧ q (BitVec.ofNat 24 n) = true := by
  rw [numbersOf, Finset.mem_filter, Finset.mem_range]

/-- A field of a number's word is a digit of the number. -/
theorem fieldOf_ofNat_eq_iff {n : Nat} (hn : n < 2 ^ 24) (lsb : Nat) {k : Nat} (v : BitVec k) :
    fieldOf (BitVec.ofNat 24 n) lsb k = v ↔ n / 2 ^ lsb % 2 ^ k = v.toNat := by
  rw [← BitVec.toNat_inj, fieldOf, BitVec.extractLsb'_toNat, BitVec.toNat_ofNat, Nat.mod_eq_of_lt hn,
    Nat.shiftRight_eq_div_pow]

theorem mem_numbersOf_isWar {n : Nat} :
    n ∈ numbersOf encoding.isWar ↔ n < 2 ^ 24 ∧ n / 2 ^ 16 % 2 ^ 8 = 0x13 ∧ n % 2 ^ 4 = 0 := by
  rw [mem_numbersOf]
  refine and_congr_right fun hn => ?_
  rw [encoding_isWar_iff, fieldOf_ofNat_eq_iff hn, fieldOf_ofNat_eq_iff hn, pow_zero, Nat.div_one]
  rfl

theorem mem_numbersOf_isCas {n : Nat} :
    n ∈ numbersOf encoding.isCas ↔ n < 2 ^ 24 ∧ n / 2 ^ 12 % 2 ^ 4 = 0xE ∧ n % 2 ^ 4 = 2 := by
  rw [mem_numbersOf]
  refine and_congr_right fun hn => ?_
  rw [encoding_isCas_iff, fieldOf_ofNat_eq_iff hn, fieldOf_ofNat_eq_iff hn, pow_zero, Nat.div_one]
  rfl

/-! ### Counting the classes -/

/-- The write-auxiliary-register word whose bits 15:4 (id and target) are `r`, as a number. -/
def warNumber (r : Nat) : Nat := 0x130000 + 2 ^ 4 * r

/-- The compare-and-swap word whose bits 23:16 (offset) and 11:4 (base and target) are the two bytes of `r`, as a number. -/
def casNumber (r : Nat) : Nat := 2 ^ 16 * (r / 2 ^ 8) + 0xE002 + 2 ^ 4 * (r % 2 ^ 8)

theorem numbersOf_isWar_eq_image : numbersOf encoding.isWar = (Finset.range (2 ^ 12)).image warNumber := by
  ext n
  simp only [mem_numbersOf_isWar, Finset.mem_image, Finset.mem_range, warNumber]
  constructor
  · rintro ⟨hn, hhigh, hlow⟩
    exact ⟨n / 2 ^ 4 % 2 ^ 12, by omega, by omega⟩
  · rintro ⟨r, hr, rfl⟩
    omega

theorem numbersOf_isCas_eq_image : numbersOf encoding.isCas = (Finset.range (2 ^ 16)).image casNumber := by
  ext n
  simp only [mem_numbersOf_isCas, Finset.mem_image, Finset.mem_range, casNumber]
  constructor
  · rintro ⟨hn, hmid, hlow⟩
    exact ⟨2 ^ 8 * (n / 2 ^ 16) + n / 2 ^ 4 % 2 ^ 8, by omega, by omega⟩
  · rintro ⟨r, hr, rfl⟩
    omega

/-- Bits 15:4 are free in the write-auxiliary-register class: 4096 words. -/
theorem card_numbersOf_isWar : (numbersOf encoding.isWar).card = 4096 := by
  have hinj : Function.Injective warNumber := fun a b h => by unfold warNumber at h; omega
  rw [numbersOf_isWar_eq_image, Finset.card_image_of_injective _ hinj, Finset.card_range]
  norm_num

/-- Bits 23:16 and 11:4 are free in the compare-and-swap class: 65536 words. -/
theorem card_numbersOf_isCas : (numbersOf encoding.isCas).card = 65536 := by
  have hinj : Function.Injective casNumber := fun a b h => by unfold casNumber at h; omega
  rw [numbersOf_isCas_eq_image, Finset.card_image_of_injective _ hinj, Finset.card_range]
  norm_num

/-- The classes differ in bits 3:0, so that no number is counted twice. -/
theorem disjoint_numbersOf_isWar_isCas : Disjoint (numbersOf encoding.isWar) (numbersOf encoding.isCas) :=
  Finset.disjoint_left.2 fun n hwar hcas => by
    rw [mem_numbersOf_isWar] at hwar
    rw [mem_numbersOf_isCas] at hcas
    omega

/-- The unrecognized numbers are those below 2^24 that are in neither class. -/
theorem filter_unrecognized_eq_sdiff :
    ((Finset.range (2 ^ 24)).filter fun n => decodeShape encoding (BitVec.ofNat 32 n) = .unrecognized) =
      Finset.range (2 ^ 24) \ (numbersOf encoding.isWar ∪ numbersOf encoding.isCas) := by
  ext n
  rw [Finset.mem_filter, Finset.mem_sdiff, Finset.mem_range]
  refine and_congr_right fun hn => ?_
  rw [decodeShape_eq_unrecognized_iff, BitVec.setWidth_ofNat_of_le (by decide), Finset.mem_union, mem_numbersOf,
    mem_numbersOf, and_iff_right hn, and_iff_right hn]

theorem card_unrecognized :
    ((Finset.range (2 ^ 24)).filter fun n => decodeShape encoding (BitVec.ofNat 32 n) = .unrecognized).card =
      2 ^ 24 - (4096 + 65536) := by
  have hsub : numbersOf encoding.isWar ∪ numbersOf encoding.isCas ⊆ Finset.range (2 ^ 24) :=
    Finset.union_subset (Finset.filter_subset _ _) (Finset.filter_subset _ _)
  rw [filter_unrecognized_eq_sdiff, Finset.card_sdiff_of_subset hsub,
    Finset.card_union_of_disjoint disjoint_numbersOf_isWar_isCas, Finset.card_range, card_numbersOf_isWar,
    card_numbersOf_isCas]

/-- Settles O7: the decoder answers Unrecognized when both class tests fail, and the two classes, which share no word, are
counted by their free bits. -/
theorem unrecognizedWordsCounted : Obligations.UnrecognizedWordsCounted := by
  refine ⟨fun p w hwar hcas => ?_, fun _ _ => rfl, card_unrecognized⟩
  rw [decodeShape_eq_unrecognized_iff, BitVec.setWidth_setWidth_of_le _ (by decide), BitVec.setWidth_eq, hwar, hcas]
  decide

end Sys2Proof
end

section
/-! A fetch only reads: it writes no state (R76). -/

namespace Sys2Proof.Machine

/-- Settles O12: in both cases of a fetch, one read or two, the record of its events is all that it adds. -/
theorem fetchOnlyReads : Obligations.FetchOnlyReads := by
  intro s u w hfetch
  obtain ⟨-, hstate⟩ := fetch_ok hfetch
  exact hstate

end Sys2Proof.Machine
end

section
/-! The order of the decoder's class tests, under any encoding parameters (R82). -/

namespace Sys2Proof

/-- The second test plays no part where the first one holds, so overlapping classes decode as writes. -/
theorem decodeShape_of_isWar {p : EncodingParams} {word : Word} (hwar : p.isWar (word.setWidth 24) = true) :
    decodeShape p word = .writeAuxiliaryRegister (fieldOf (word.setWidth 24) p.warTLsb 4)
      (fieldOf (word.setWidth 24) p.warIdLsb 8) :=
  if_pos hwar

theorem decodeShape_of_isCas {p : EncodingParams} {word : Word} (hwar : p.isWar (word.setWidth 24) = false)
    (hcas : p.isCas (word.setWidth 24) = true) :
    decodeShape p word = .compareAndSwapWord (fieldOf (word.setWidth 24) p.casTLsb 4)
      (fieldOf (word.setWidth 24) p.casSLsb 4) (fieldOf (word.setWidth 24) p.casImmLsb 8) :=
  (if_neg (Bool.eq_false_iff.1 hwar)).trans (if_pos hcas)

/-- Settles O4: each outcome of the two tests selects one branch of the decoder, whose fields are the witnesses. -/
theorem classTestsOrdered : Obligations.ClassTestsOrdered := by
  refine ⟨fun p word hwar => ?war, fun p word hwar hcas => ?cas, fun p word hwar hcas => ?neither⟩
  case war => exact ⟨_, _, decodeShape_of_isWar hwar⟩
  case cas => exact ⟨_, _, _, decodeShape_of_isCas hwar hcas⟩
  case neither =>
    rw [decodeShape_eq_unrecognized_iff, hwar, hcas]
    decide

end Sys2Proof
end

section
/-! The register frame mutator and the auxiliary register mutator: what each one writes and what it leaves (R92, R95). -/

namespace Sys2Proof.Machine

/-! ### What neither mutator touches -/

theorem State.sameRest_setVar (s : State) (v : Word) : State.sameRest s (s.setVar v) :=
  ⟨s.setVar_core v, s.setVar_flight v, s.setVar_others v, s.setVar_map v, s.setVar_inputs v⟩

theorem State.sameRest_setSlot (s : State) (i : SlotIndex) (v : Word) : State.sameRest s (s.setSlot i v) :=
  ⟨s.setSlot_core i v, s.setSlot_flight i v, s.setSlot_others i v, s.setSlot_map i v, s.setSlot_inputs i v⟩

/-! ### `VAR <- v` (R95) -/

theorem State.setVar_frame (s : State) (v : Word) :
    (s.setVar v).inst.var = v ∧ (s.setVar v).inst.ctx = s.inst.ctx ∧ (s.setVar v).mem = s.mem ∧
    (s.setVar v).inst.verdict = s.inst.verdict ∧ (s.setVar v).inst.bus = s.inst.bus ∧ State.sameRest s (s.setVar v) :=
  ⟨s.setVar_var v, s.setVar_ctx v, s.setVar_mem v, s.setVar_verdict v, s.setVar_bus v, s.sameRest_setVar v⟩

/-- The watched WAR is the only row of the opcode table that reaches the write path of `VAR`. -/
theorem exec_war_of_var_ne {i : Instr} {s u : State} (h : exec i s = .next u) (hne : u.inst.var ≠ s.inst.var) :
    ∃ t, i = .war t ∧ u.inst.var = s.slot t := by
  obtain hkept | ⟨t, hi, hvar⟩ := (exec_varEffect h).var
  · exact absurd hkept hne
  · exact ⟨t, Option.some.inj hi, hvar⟩

/-- Settles O15: the frame of the mutator, and what every row of the opcode table does to `VAR`. -/
theorem varWritePath : Obligations.VarWritePath :=
  ⟨State.setVar_frame, fun _ _ _ h hne => exec_war_of_var_ne h hne⟩

/-! ### `x[i] <- v` (R92) -/

/-- Settles O13: the slot laws for the 16 slots, and the field laws of the update for everything else. -/
theorem slotWriteFrame : Obligations.SlotWriteFrame := by
  intro s i v
  have hsame : (s.setSlot i v).slot i = v := s.slot_setSlot_same i v
  have hother : ∀ j, j ≠ i → (s.setSlot i v).slot j = s.slot j := fun _ hj => s.slot_setSlot_other hj v
  have hpc : (s.setSlot i v).inst.ctx.pc = s.inst.ctx.pc := s.inst.ctx.set_pc i v
  exact ⟨hsame, hother, hpc, s.setSlot_var i v, s.setSlot_mem i v, s.setSlot_verdict i v, s.setSlot_bus i v,
    s.sameRest_setSlot i v⟩

end Sys2Proof.Machine
end

section
/-! The frame of an invocation: the pc, the other slots, the other bytes and the rest of the machine (R104, R107). -/

namespace Sys2Proof.Machine

/-! ### The second half of a CASW -/

/-- A second half that completes stores and returns, or returns without a store (R123, R124). -/
theorem caswFinish_next {l : Loaded} {s u : State} (h : caswFinish l s = .next u) :
    (l.oldValue = s.inst.var ∧ s.map.writable l.address = true ∧
      u = caswReturn l ((s.setMem (s.mem.putWord l.address l.newValue)).record (.write l.address l.newValue))) ∨
    (l.oldValue ≠ s.inst.var ∧ u = caswReturn l s) := by
  rw [caswFinish_eq] at h
  split at h
  · next heq =>
    split at h <;> cases h
    next hwritable => exact .inl ⟨heq, hwritable, rfl⟩
  · next hne =>
    cases h
    exact .inr ⟨hne, rfl⟩

theorem caswFinish_ctx {l : Loaded} {s u : State} (h : caswFinish l s = .next u) :
    u.inst.ctx = s.inst.ctx.set l.target l.oldValue := by
  obtain ⟨-, -, rfl⟩ | ⟨-, rfl⟩ := caswFinish_next h <;> rfl

theorem caswFinish_sameRest {l : Loaded} {s u : State} (h : caswFinish l s = .next u) : State.sameRest s u := by
  obtain ⟨-, -, rfl⟩ | ⟨-, rfl⟩ := caswFinish_next h <;> exact ⟨rfl, rfl, rfl, rfl, rfl⟩

/-- Whether it stores or not, a CASW reaches no byte outside its word (R107, R123). -/
theorem caswFinish_sameBytesOutside {l : Loaded} {s u : State} (h : caswFinish l s = .next u) :
    State.sameBytesOutside s u l.address := by
  intro a ha
  obtain ⟨-, -, rfl⟩ | ⟨-, rfl⟩ := caswFinish_next h
  · exact s.mem.byte_putWord_other l.address l.newValue a ha
  · rfl

theorem caswFinish_pc {l : Loaded} {s u : State} (h : caswFinish l s = .next u) :
    u.inst.ctx.pc = s.inst.ctx.pc := by
  rw [caswFinish_ctx h, Context.set_pc]

/-! ### The frame of every row of the opcode table -/

/-- What the effect of the instruction `i` from `s` to `u` leaves unchanged, `VAR` apart (R107). -/
structure InstrFrame (i : Instr) (s u : State) : Prop where
  pc : u.inst.ctx.pc = s.inst.ctx.pc
  slot : ∀ j, u.slot j ≠ s.slot j → ∃ b off, i = .casw j b off
  byte : ∀ a, u.mem.byte a ≠ s.mem.byte a → ∃ t b off, i = .casw t b off ∧ a ∈ wordAddresses (s.caswAddress b off)
  rest : State.sameRest s u

/-- An effect that keeps the context and the memory is in the frame of any instruction. -/
theorem InstrFrame.of_kept {i : Instr} {s u : State} (hctx : u.inst.ctx = s.inst.ctx) (hmem : u.mem = s.mem)
    (hrest : State.sameRest s u) : InstrFrame i s u where
  pc := congrArg Context.pc hctx
  slot j hj := absurd (State.slot_of_ctx hctx j) hj
  byte a ha := absurd (congrArg (Memory.byte · a) hmem) ha
  rest := hrest

theorem execCasw_frame {t b : SlotIndex} {off : BitVec 8} {s u : State} (h : execCasw t b off s = .next u) :
    InstrFrame (.casw t b off) s u := by
  unfold execCasw at h
  split at h
  · cases h
  · next hload =>
    obtain ⟨-, -, rfl, rfl⟩ := caswLoad_ok.1 hload
    have hpc := caswFinish_pc h
    have hrest := caswFinish_sameRest h
    refine ⟨hpc, fun j hj => ?slot, fun a ha => ?byte, hrest⟩
    case slot =>
      have hjt : j = t := by
        by_contra hne
        rw [State.slot, caswFinish_ctx h] at hj
        exact hj (Context.get_set_other _ hne _)
      exact ⟨b, off, by rw [hjt]⟩
    case byte =>
      exact ⟨t, b, off, rfl, by_contra fun hout => ha (caswFinish_sameBytesOutside h a hout)⟩

/-- Only a CASW has more in its effect than `VAR` and the verdict. -/
theorem exec_frame {i : Instr} {s u : State} (h : exec i s = .next u) : InstrFrame i s u := by
  cases i with
  | war t =>
    cases h
    exact .of_kept rfl rfl (s.sameRest_setVar (s.slot t))
  | warUnwatched t id =>
    cases h
    exact .of_kept rfl rfl ⟨rfl, rfl, rfl, rfl, rfl⟩
  | casw t b off => exact execCasw_frame h
  | unrec w =>
    cases h
    exact .of_kept rfl rfl ⟨rfl, rfl, rfl, rfl, rfl⟩

/-! ### Whole and resumed invocations -/

/-- The fetch adds only to the record of memory events, which no part of the frame reads (R76). -/
theorem handle_frame {s u : State} (h : handle s = .next u) : InstrFrame s.current s u := by
  obtain ⟨hpc, hslot, hbyte, hrest⟩ := exec_frame (handle_next h)
  exact ⟨hpc, hslot, hbyte, hrest⟩

/-- Settles O36, by the stage at which the invocation stands: nothing done, half fetched, fetched, or loaded. -/
theorem invocationNeverWritesPc : Obligations.InvocationNeverWritesPc := by
  intro s u h
  unfold complete at h
  split at h
  · exact (handle_frame h).pc
  · split at h
    · cases h
    · next hsecond =>
      obtain ⟨-, -, rfl⟩ := fetchSecond_ok.1 hsecond
      exact (exec_frame h).pc
  · exact (exec_frame h).pc
  · exact caswFinish_pc (s := s.setFlight none) h

/-- Settles O37: the frame of the instruction at the pc, and the one row that reaches `VAR`. -/
theorem invocationFrame : Obligations.InvocationFrame := by
  intro s u h
  obtain ⟨hpc, hslot, hbyte, hrest⟩ := handle_frame h
  have hvar : u.inst.var ≠ s.inst.var → ∃ t, s.current = .war t := fun hne =>
    (exec_war_of_var_ne (handle_next h) hne).imp fun _ hwar => hwar.1
  exact ⟨hpc, hslot, hbyte, hvar, hrest⟩

end Sys2Proof.Machine
end

section
/-! CASW: when it faults, and the state in which it ends otherwise (R122, R123, R124, R127). -/

namespace Sys2Proof.Machine

/-! ### The effect of a CASW as one equation -/

/-- The state in which a CASW that does not fault ends (R120): the slot holds the loaded word, and memory holds the old slot where
the loaded word equalled `VAR`. -/
def State.afterCasw (s : State) (t b : SlotIndex) (off : BitVec 8) : State :=
  { s with
    inst := { s.inst with
      ctx := s.inst.ctx.set t (s.mem.word (s.caswAddress b off))
      verdict := some true
      bus := s.inst.bus ++ s.dataEvents (.casw t b off) }
    mem := if s.mem.word (s.caswAddress b off) = s.inst.var then s.mem.putWord (s.caswAddress b off) (s.slot t)
      else s.mem }

section afterCasw

variable (s : State) (t b : SlotIndex) (off : BitVec 8)

@[simp] theorem State.afterCasw_slot : (s.afterCasw t b off).slot t = s.mem.word (s.caswAddress b off) :=
  Context.get_set_same _ _ _

@[simp] theorem State.afterCasw_verdict : (s.afterCasw t b off).inst.verdict = some true := rfl

@[simp] theorem State.afterCasw_var : (s.afterCasw t b off).inst.var = s.inst.var := rfl

theorem State.afterCasw_bus :
    (s.afterCasw t b off).inst.bus = s.inst.bus ++ s.dataEvents (.casw t b off) := rfl

variable {s b off}

theorem State.afterCasw_mem_of_eq (h : s.mem.word (s.caswAddress b off) = s.inst.var) :
    (s.afterCasw t b off).mem = s.mem.putWord (s.caswAddress b off) (s.slot t) :=
  if_pos h

theorem State.afterCasw_mem_of_ne (h : s.mem.word (s.caswAddress b off) ≠ s.inst.var) :
    (s.afterCasw t b off).mem = s.mem :=
  if_neg h

theorem State.dataEvents_casw_of_eq (h : s.mem.word (s.caswAddress b off) = s.inst.var) :
    s.dataEvents (.casw t b off) = [.read (s.caswAddress b off), .write (s.caswAddress b off) (s.slot t)] :=
  if_pos h

theorem State.dataEvents_casw_of_ne (h : s.mem.word (s.caswAddress b off) ≠ s.inst.var) :
    s.dataEvents (.casw t b off) = [.read (s.caswAddress b off)] :=
  if_neg h

/-- The word that a CASW swaps reads as the old slot afterwards (R120). -/
theorem State.afterCasw_word_of_eq (h : s.mem.word (s.caswAddress b off) = s.inst.var) :
    (s.afterCasw t b off).mem.word (s.caswAddress b off) = s.slot t := by
  rw [State.afterCasw_mem_of_eq t h, Memory.word_putWord]

theorem State.sameBytesOutside_afterCasw_of_eq (h : s.mem.word (s.caswAddress b off) = s.inst.var) :
    State.sameBytesOutside s (s.afterCasw t b off) (s.caswAddress b off) := by
  intro a ha
  rw [State.afterCasw_mem_of_eq t h, Memory.byte_putWord_other _ _ _ _ ha]

theorem State.sameBytes_afterCasw_of_ne (h : s.mem.word (s.caswAddress b off) ≠ s.inst.var) :
    State.sameBytes s (s.afterCasw t b off) := by
  intro a
  rw [State.afterCasw_mem_of_ne t h]

end afterCasw

/-- Past the load, a CASW faults where the store is due and the word is not `Writable`, and else it ends (R123). -/
theorem State.caswFault_of_readable {s : State} {b : SlotIndex} {off : BitVec 8}
    (ha : aligned (s.caswAddress b off) = true) (hr : s.map.readable (s.caswAddress b off) = true) :
    s.caswFault b off =
      if s.mem.word (s.caswAddress b off) = s.inst.var ∧ s.map.writable (s.caswAddress b off) = false then
        some (.dataInaccessible (s.caswAddress b off))
      else none := by
  simp only [State.caswFault, ha, hr, Bool.not_true, Bool.false_eq_true, if_false]

/-- A CASW ends in the fault that R127 gives it, or, where it gives none, in the state that R120 gives it. -/
theorem exec_casw_eq (t b : SlotIndex) (off : BitVec 8) (s : State) :
    exec (.casw t b off) s = (s.caswFault b off).elim (.next (s.afterCasw t b off)) .fault := by
  rw [exec, execCasw]
  split
  · next f hload =>
    have hfault : s.caswFault b off = some f := by
      obtain ⟨ha, rfl⟩ | ⟨ha, hr, rfl⟩ := caswLoad_error.1 hload
      · simp [State.caswFault, ha]
      · simp [State.caswFault, ha, hr]
    rw [hfault]
    rfl
  · next hload =>
    obtain ⟨ha, hr, rfl, rfl⟩ := caswLoad_ok.1 hload
    rw [caswFinish_eq, State.caswFault_of_readable ha hr]
    by_cases heq : s.mem.word (s.caswAddress b off) = s.inst.var
    · by_cases hw : s.map.writable (s.caswAddress b off) = true
      · simp [heq, hw, caswReturn, State.afterCasw, State.dataEvents, State.record, State.setMem,
          State.setSlot, State.report]
      · simp [heq, hw]
    · simp [heq, caswReturn, State.afterCasw, State.dataEvents, State.record, State.setSlot, State.report]

theorem exec_casw_fault_iff {t b : SlotIndex} {off : BitVec 8} {s : State} {f : Fault} :
    exec (.casw t b off) s = .fault f ↔ s.caswFault b off = some f := by
  rw [exec_casw_eq]
  cases s.caswFault b off <;> simp

theorem exec_casw_next_iff {t b : SlotIndex} {off : BitVec 8} {s u : State} :
    exec (.casw t b off) s = .next u ↔ s.caswFault b off = none ∧ u = s.afterCasw t b off := by
  rw [exec_casw_eq]
  cases s.caswFault b off <;> simp [eq_comm]

theorem exec_casw_ne_refused (t b : SlotIndex) (off : BitVec 8) (s : State) (r : Refusal) :
    exec (.casw t b off) s ≠ .refused r := by
  rw [exec_casw_eq]
  cases s.caswFault b off <;> simp

/-! ### Where a fetch faults (R75, R153) -/

theorem State.fetchable_iff {s : State} :
    s.fetchable = true ↔ s.map.readable (alignedBase s.inst.ctx.pc) = true ∧
      (aligned s.inst.ctx.pc = true ∨ s.map.readable (nextAligned s.inst.ctx.pc) = true) := by
  rw [State.fetchable, Bool.and_eq_true, Bool.or_eq_true]

theorem fetch_of_fetchable {s : State} (h : s.fetchable = true) : ∃ r, fetch s = .ok r := by
  obtain ⟨hbase, hnext⟩ := State.fetchable_iff.1 h
  rw [fetch_eq, if_pos hbase]
  split
  · exact ⟨_, rfl⟩
  · next ha => exact ⟨_, if_pos (hnext.resolve_left ha)⟩

theorem fetch_of_not_fetchable {s : State} (h : s.fetchable = false) :
    ∃ a, fetch s = .error (.fetchInaccessible a) := by
  rw [← Bool.not_eq_true, State.fetchable_iff] at h
  rw [fetch_eq]
  split
  · next hbase =>
    have hnext := fun hn => h ⟨hbase, hn⟩
    rw [if_neg fun ha => hnext (.inl ha), if_neg fun hr => hnext (.inr hr)]
    exact ⟨_, rfl⟩
  · exact ⟨_, rfl⟩

/-- With its fetch serviced, an invocation is the effect of the instruction at the pc, begun after the fetch (R101). -/
theorem handle_of_fetchable {s : State} (h : s.fetchable = true) : handle s = exec s.current s.afterFetch := by
  obtain ⟨⟨w, u⟩, hfetch⟩ := fetch_of_fetchable (s := s.clearBus) h
  rw [handle, hfetch]
  obtain ⟨rfl, rfl⟩ := fetch_ok hfetch
  rfl

theorem handle_of_not_fetchable {s : State} (h : s.fetchable = false) :
    ∃ a, handle s = .fault (.fetchInaccessible a) := by
  obtain ⟨a, hfetch⟩ := fetch_of_not_fetchable (s := s.clearBus) h
  exact ⟨a, by rw [handle, hfetch]; rfl⟩

@[simp] theorem State.caswFault_afterFetch (s : State) (b : SlotIndex) (off : BitVec 8) :
    s.afterFetch.caswFault b off = s.caswFault b off := rfl

/-! ### The obligations -/

/-- Settles O26: the effect faults as R127 says, and a step adds the fetch before it and the dispatcher, which keeps faults,
after it. -/
theorem caswFaultsInOrder : Obligations.CaswFaultsInOrder := by
  intro t b off s
  refine ⟨fun f => exec_casw_fault_iff, exec_casw_ne_refused t b off s, fun hidle hcur => ?_⟩
  rw [step_of_idle hidle]
  refine ⟨fun hnot => ?unfetched, fun hfetchable f => ?fetched⟩
  case unfetched =>
    exact (handle_of_not_fetchable hnot).imp fun _ hfault => dispatch_fault.2 hfault
  case fetched =>
    rw [dispatch_fault, handle_of_fetchable hfetchable, hcur, exec_casw_fault_iff, State.caswFault_afterFetch]

/-- Settles O28, by the two tests that are left past the load: the comparison with `VAR`, and `Writable` where the store is
due. -/
theorem caswStoresExactlyOnEquality : Obligations.CaswStoresExactlyOnEquality := by
  intro t b off s ha hr
  have hfault := State.caswFault_of_readable ha hr
  refine ⟨fun heq hw => ?stored, fun heq hw => ?denied, fun hne => ?kept⟩
  case stored =>
    refine ⟨s.afterCasw t b off, exec_casw_next_iff.2 ⟨?_, rfl⟩, s.afterCasw_word_of_eq t heq,
      s.sameBytesOutside_afterCasw_of_eq t heq, ?_⟩
    · rw [hfault, if_neg (by simp [hw])]
    · rw [State.afterCasw_bus, State.dataEvents_casw_of_eq t heq]
  case denied =>
    exact exec_casw_fault_iff.2 (hfault.trans (if_pos ⟨heq, hw⟩))
  case kept =>
    refine ⟨s.afterCasw t b off, exec_casw_next_iff.2 ⟨?_, rfl⟩, s.sameBytes_afterCasw_of_ne t hne,
      s.afterCasw_verdict t b off, s.afterCasw_slot t b off, ?_⟩
    · rw [hfault, if_neg fun h => hne h.1]
    · rw [State.afterCasw_bus, State.dataEvents_casw_of_ne t hne]

/-- Settles O29: a CASW that completes ends in the one state that R120 gives it. -/
theorem caswAlwaysReturnsLoadedWord : Obligations.CaswAlwaysReturnsLoadedWord := by
  intro t b off s u h
  obtain ⟨-, rfl⟩ := exec_casw_next_iff.1 h
  have hslot := s.afterCasw_slot t b off
  have hvar := s.afterCasw_var t b off
  refine ⟨hslot, s.afterCasw_verdict t b off, fun heq => ?swapped, fun hne => ?kept⟩
  case swapped => exact ⟨s.afterCasw_word_of_eq t heq, by rw [hslot, hvar, heq]⟩
  case kept => exact ⟨s.sameBytes_afterCasw_of_ne t hne, by rwa [hslot, hvar]⟩

end Sys2Proof.Machine
end

section
/-! Reset: `VAR` becomes 0 and nothing else changes (R172). -/

namespace Sys2Proof.Machine

/-- With an input pending, a step takes that input from the list and does what it asks for. -/
theorem step_of_input {s : State} {i : Input} {rest : List Input} (hin : s.inputs = i :: rest) :
    step s = environment i { s with inputs := rest } := by
  rw [step, hin]

/-- Between invocations a reset is accepted (R163). -/
theorem environment_reset_of_no_flight {s : State} (hfl : s.inst.flight = none) :
    environment .reset s = .next (resetInstance s) := by
  simp [environment, hfl]

/-- Settles O53: the machine starts from reset instances, and a later reset, accepted between invocations, is the write of 0 to
`VAR`. -/
theorem instanceResetClearsVarOnly : Obligations.InstanceResetClearsVarOnly := by
  refine ⟨rfl, rfl, fun s rest hin hfl => ?later⟩
  case later =>
    calc step s = environment .reset { s with inputs := rest } := step_of_input hin
      _ = .next (resetInstance { s with inputs := rest }) := environment_reset_of_no_flight hfl
      _ = .next { s with inst := { s.inst with var := 0 }, inputs := rest } := rfl

end Sys2Proof.Machine
end

section
/-! The encoder and the decoder are inverse to each other (R53, R61, R63, R80), and what follows for fixed words and fields. -/

namespace Sys2Proof

/-! ### A field put into a word and taken out of it (R53) -/

/-- A field of `n` bits at its place in an instruction word, every other bit 0 (R61). -/
def placeField {n : Nat} (x : BitVec n) (lsb : Nat) : InsnWord := x.setWidth 24 <<< lsb

theorem getLsbD_placeField {n : Nat} (x : BitVec n) (lsb i : Nat) :
    (placeField x lsb).getLsbD i = (decide (i < 24) && !decide (i < lsb) && x.getLsbD (i - lsb)) := by
  rw [placeField, BitVec.getLsbD_shiftLeft, BitVec.getLsbD_setWidth]
  by_cases h : i < 24
  · simp [h, show i - lsb < 24 by omega]
  · simp [h]

theorem getLsbD_fieldMask (lsb n i : Nat) :
    (fieldMask lsb n).getLsbD i = (decide (i < 24) && !decide (i < lsb) && decide (i - lsb < n)) :=
  (getLsbD_placeField (BitVec.allOnes n) lsb i).trans (by rw [BitVec.getLsbD_allOnes])

theorem getLsbD_fieldOf (w : InsnWord) (lsb n i : Nat) :
    (fieldOf w lsb n).getLsbD i = (decide (i < n) && w.getLsbD (lsb + i)) :=
  BitVec.getLsbD_extractLsb' lsb n w i

theorem fieldOf_or (x y : InsnWord) (lsb n : Nat) :
    fieldOf (x ||| y) lsb n = fieldOf x lsb n ||| fieldOf y lsb n :=
  BitVec.extractLsb'_or

theorem fieldOf_placeField {n : Nat} (x : BitVec n) {lsb : Nat} (hin : lsb + n ≤ 24) :
    fieldOf (placeField x lsb) lsb n = x := by
  apply BitVec.eq_of_getLsbD_eq
  intro i hi
  rw [getLsbD_fieldOf, getLsbD_placeField]
  simp [hi, show lsb + i < 24 by omega]

theorem placeField_fieldOf (w : InsnWord) (lsb n : Nat) :
    placeField (fieldOf w lsb n) lsb = w &&& fieldMask lsb n := by
  apply BitVec.eq_of_getLsbD_eq
  intro i hi
  rw [BitVec.getLsbD_and, getLsbD_fieldMask, getLsbD_placeField, getLsbD_fieldOf]
  by_cases hlow : i < lsb
  · simp [hlow]
  · simp [hi, hlow, show lsb + (i - lsb) = i by omega, Bool.and_comm]

theorem placeField_and_fieldMask {n : Nat} (x : BitVec n) (lsb : Nat) :
    placeField x lsb &&& fieldMask lsb n = placeField x lsb := by
  apply BitVec.eq_of_getLsbD_eq
  intro i _
  rw [BitVec.getLsbD_and, getLsbD_fieldMask, getLsbD_placeField]
  by_cases hn : i - lsb < n
  · simp +contextual [hn]
  · simp [hn, BitVec.getLsbD_of_ge x (i - lsb) (by omega)]

/-- A placed field has no bit in common with whatever its mask has none in common with. -/
theorem placeField_and_eq_zero {n : Nat} (x : BitVec n) {lsb : Nat} {m : InsnWord} (h : fieldMask lsb n &&& m = 0) :
    placeField x lsb &&& m = 0 := by
  rw [← placeField_and_fieldMask, BitVec.and_assoc, h]
  exact BitVec.and_zero

theorem fieldOf_eq_zero {w : InsnWord} {lsb n : Nat} (hin : lsb + n ≤ 24) (h : w &&& fieldMask lsb n = 0) :
    fieldOf w lsb n = 0 := by
  rw [← fieldOf_placeField (fieldOf w lsb n) hin, placeField_fieldOf, h]
  exact BitVec.extractLsb'_zero

/-- The field of another place is 0 in a placed field. -/
theorem fieldOf_placeField_other {n n' : Nat} (x : BitVec n) {lsb lsb' : Nat} (hin : lsb' + n' ≤ 24)
    (h : fieldMask lsb n &&& fieldMask lsb' n' = 0) : fieldOf (placeField x lsb) lsb' n' = 0 :=
  fieldOf_eq_zero hin (placeField_and_eq_zero x h)

/-- A pattern inside a mask is 0 in every field that is clear of the mask. -/
theorem fieldOf_pattern {pat m : InsnWord} {lsb n : Nat} (hin : lsb + n ≤ 24) (hpat : pat &&& m = pat)
    (hclear : fieldMask lsb n &&& m = 0) : fieldOf pat lsb n = 0 := by
  apply fieldOf_eq_zero hin
  rw [← hpat, BitVec.and_assoc, BitVec.and_comm m, hclear]
  exact BitVec.and_zero

/-! ### The parameter sets that R63 allows -/

/-- The requirements of R63 one by one, as `EncodingParams.valid` checks them. -/
structure EncodingParams.Allowed (p : EncodingParams) : Prop where
  warPattern : p.warMatch &&& p.warMask = p.warMatch
  warTIn : p.warTLsb + 4 ≤ 24
  warIdIn : p.warIdLsb + 8 ≤ 24
  warTClear : fieldMask p.warTLsb 4 &&& p.warMask = 0
  warIdClear : fieldMask p.warIdLsb 8 &&& p.warMask = 0
  warTId : fieldMask p.warTLsb 4 &&& fieldMask p.warIdLsb 8 = 0
  casPattern : p.casMatch &&& p.casMask = p.casMatch
  casTIn : p.casTLsb + 4 ≤ 24
  casSIn : p.casSLsb + 4 ≤ 24
  casImmIn : p.casImmLsb + 8 ≤ 24
  casTClear : fieldMask p.casTLsb 4 &&& p.casMask = 0
  casSClear : fieldMask p.casSLsb 4 &&& p.casMask = 0
  casImmClear : fieldMask p.casImmLsb 8 &&& p.casMask = 0
  casTS : fieldMask p.casTLsb 4 &&& fieldMask p.casSLsb 4 = 0
  casTImm : fieldMask p.casTLsb 4 &&& fieldMask p.casImmLsb 8 = 0
  casSImm : fieldMask p.casSLsb 4 &&& fieldMask p.casImmLsb 8 = 0
  apart : p.warMask &&& p.casMask &&& (p.warMatch ^^^ p.casMatch) ≠ 0

theorem EncodingParams.allowed_of_valid {p : EncodingParams} (h : p.valid = true) : p.Allowed := by
  simp only [valid, warFormatOk, casFormatOk, disjoint, Bool.and_eq_true, beq_iff_eq, bne_iff_ne,
    decide_eq_true_eq] at h
  obtain ⟨⟨⟨⟨⟨⟨⟨hwp, hwt⟩, hwi⟩, hwtc⟩, hwic⟩, hwti⟩,
    ⟨⟨⟨⟨⟨⟨⟨⟨⟨hcp, hct⟩, hcs⟩, hci⟩, hctc⟩, hcsc⟩, hcic⟩, hcts⟩, hcti⟩, hcsi⟩⟩, hap⟩ := h
  exact ⟨hwp, hwt, hwi, hwtc, hwic, hwti, hcp, hct, hcs, hci, hctc, hcsc, hcic, hcts, hcti, hcsi, hap⟩

/-- Settles O10: the check of a parameter set evaluates on the nine numbers. -/
theorem defaultParametersAllowed : Obligations.DefaultParametersAllowed := by
  unfold Obligations.DefaultParametersAllowed
  decide

/-- A word in both classes would agree with both patterns in every bit that both masks test. -/
theorem EncodingParams.Allowed.not_isWar_and_isCas {p : EncodingParams} (h : p.Allowed) (w : InsnWord) :
    ¬ (p.isWar w = true ∧ p.isCas w = true) := by
  rintro ⟨hwar, hcas⟩
  rw [isWar, beq_iff_eq] at hwar
  rw [isCas, beq_iff_eq] at hcas
  apply h.apart
  rw [← hwar, ← hcas]
  apply BitVec.eq_of_getLsbD_eq
  intro i _
  simp only [BitVec.getLsbD_and, BitVec.getLsbD_xor]
  cases p.warMask.getLsbD i <;> simp +contextual

/-- Settles O5: the bit that R63 asks for keeps the classes apart, and the default parameters are allowed. -/
theorem classesDisjoint : Obligations.ClassesDisjoint :=
  ⟨fun _ w hp => (EncodingParams.allowed_of_valid hp).not_isWar_and_isCas w,
    (EncodingParams.allowed_of_valid defaultParametersAllowed).not_isWar_and_isCas⟩

/-! ### The decoder on an encoded word -/

/-- The word of the write-auxiliary-register format (R52, R61). -/
def EncodingParams.warWord (p : EncodingParams) (t : SlotIndex) (id : BitVec 8) : InsnWord :=
  p.warMatch ||| placeField t p.warTLsb ||| placeField id p.warIdLsb

/-- The word of the compare-and-swap-word format (R52, R61). -/
def EncodingParams.casWord (p : EncodingParams) (t s : SlotIndex) (off : BitVec 8) : InsnWord :=
  p.casMatch ||| placeField t p.casTLsb ||| placeField s p.casSLsb ||| placeField off p.casImmLsb

@[simp] theorem encodeWith_war (p : EncodingParams) (t : SlotIndex) :
    encodeWith p (.war t) = p.warWord t Config.watchedId := rfl

@[simp] theorem encodeWith_warUnwatched (p : EncodingParams) (t : SlotIndex) (id : BitVec 8) :
    encodeWith p (.warUnwatched t id) = p.warWord t id := rfl

@[simp] theorem encodeWith_casw (p : EncodingParams) (t s : SlotIndex) (off : BitVec 8) :
    encodeWith p (.casw t s off) = p.casWord t s off := rfl

@[simp] theorem encodeWith_unrec (p : EncodingParams) (w : InsnWord) : encodeWith p (.unrec w) = w := rfl

/-- An instruction word is fetched with a zero high byte, and the decoder clears the high byte again (R60, R71). -/
@[simp] theorem setWidth_setWidth_insn (w : InsnWord) : (w.setWidth 32).setWidth 24 = w := by
  rw [BitVec.setWidth_setWidth_of_le _ (by decide), BitVec.setWidth_eq]

section allowed

variable {p : EncodingParams} (h : p.Allowed)
include h

theorem EncodingParams.Allowed.isWar_warWord (t : SlotIndex) (id : BitVec 8) : p.isWar (p.warWord t id) = true := by
  rw [isWar, beq_iff_eq, warWord, BitVec.and_or_distrib_right, BitVec.and_or_distrib_right, h.warPattern,
    placeField_and_eq_zero t h.warTClear, placeField_and_eq_zero id h.warIdClear]
  simp

theorem EncodingParams.Allowed.isCas_casWord (t s : SlotIndex) (off : BitVec 8) :
    p.isCas (p.casWord t s off) = true := by
  rw [isCas, beq_iff_eq, casWord, BitVec.and_or_distrib_right, BitVec.and_or_distrib_right,
    BitVec.and_or_distrib_right, h.casPattern, placeField_and_eq_zero t h.casTClear,
    placeField_and_eq_zero s h.casSClear, placeField_and_eq_zero off h.casImmClear]
  simp

theorem EncodingParams.Allowed.decodeShape_warWord (t : SlotIndex) (id : BitVec 8) :
    decodeShape p ((p.warWord t id).setWidth 32) = .writeAuxiliaryRegister t id := by
  have ht : fieldOf (p.warWord t id) p.warTLsb 4 = t := by
    rw [warWord, fieldOf_or, fieldOf_or, fieldOf_pattern h.warTIn h.warPattern h.warTClear,
      fieldOf_placeField t h.warTIn,
      fieldOf_placeField_other id h.warTIn ((BitVec.and_comm ..).trans h.warTId)]
    simp
  have hid : fieldOf (p.warWord t id) p.warIdLsb 8 = id := by
    rw [warWord, fieldOf_or, fieldOf_or, fieldOf_pattern h.warIdIn h.warPattern h.warIdClear,
      fieldOf_placeField id h.warIdIn, fieldOf_placeField_other t h.warIdIn h.warTId]
    simp
  rw [decodeShape_of_isWar (by rw [setWidth_setWidth_insn, h.isWar_warWord]), setWidth_setWidth_insn, ht, hid]

theorem EncodingParams.Allowed.decodeShape_casWord (t s : SlotIndex) (off : BitVec 8) :
    decodeShape p ((p.casWord t s off).setWidth 32) = .compareAndSwapWord t s off := by
  have ht : fieldOf (p.casWord t s off) p.casTLsb 4 = t := by
    rw [casWord, fieldOf_or, fieldOf_or, fieldOf_or, fieldOf_pattern h.casTIn h.casPattern h.casTClear,
      fieldOf_placeField t h.casTIn, fieldOf_placeField_other s h.casTIn ((BitVec.and_comm ..).trans h.casTS),
      fieldOf_placeField_other off h.casTIn ((BitVec.and_comm ..).trans h.casTImm)]
    simp
  have hs : fieldOf (p.casWord t s off) p.casSLsb 4 = s := by
    rw [casWord, fieldOf_or, fieldOf_or, fieldOf_or, fieldOf_pattern h.casSIn h.casPattern h.casSClear,
      fieldOf_placeField s h.casSIn, fieldOf_placeField_other t h.casSIn h.casTS,
      fieldOf_placeField_other off h.casSIn ((BitVec.and_comm ..).trans h.casSImm)]
    simp
  have hoff : fieldOf (p.casWord t s off) p.casImmLsb 8 = off := by
    rw [casWord, fieldOf_or, fieldOf_or, fieldOf_or, fieldOf_pattern h.casImmIn h.casPattern h.casImmClear,
      fieldOf_placeField off h.casImmIn, fieldOf_placeField_other t h.casImmIn h.casTImm,
      fieldOf_placeField_other s h.casImmIn h.casSImm]
    simp
  have hcas := h.isCas_casWord t s off
  have hwar : p.isWar (p.casWord t s off) = false :=
    Bool.eq_false_iff.2 fun hwar => h.not_isWar_and_isCas _ ⟨hwar, hcas⟩
  rw [decodeShape_of_isCas (by rw [setWidth_setWidth_insn, hwar]) (by rw [setWidth_setWidth_insn, hcas]),
    setWidth_setWidth_insn, ht, hs, hoff]

end allowed

theorem decodeWith_setWidth (p : EncodingParams) (w : InsnWord) :
    decodeWith p (w.setWidth 32) = rowOf w (decodeShape p (w.setWidth 32)) := by
  rw [decodeWith, setWidth_setWidth_insn]

/-- Settles O1, by the row of the instruction: its format's word decodes to its fields, and the comparison with the watched id
tells the two write rows apart. -/
theorem decodeInvertsEncodeForAllParameters : Obligations.DecodeInvertsEncodeForAllParameters := by
  intro p i hp hwf
  have hallowed := EncodingParams.allowed_of_valid hp
  rw [decodeWith_setWidth]
  cases i with
  | war t => rw [encodeWith_war, hallowed.decodeShape_warWord]; rfl
  | warUnwatched t id =>
    have hid : id ≠ Config.watchedId := bne_iff_ne.1 hwf
    rw [encodeWith_warUnwatched, hallowed.decodeShape_warWord, rowOf, if_neg hid]
  | casw t s off => rw [encodeWith_casw, hallowed.decodeShape_casWord]; rfl
  | unrec w =>
    have hneither : decodeShape p (w.setWidth 32) = .unrecognized := by
      rw [decodeShape_eq_unrecognized_iff, setWidth_setWidth_insn]
      simpa [Instr.wfWith] using hwf
    rw [encodeWith_unrec, hneither, rowOf]

theorem decode_encode {i : Instr} (hwf : i.wf = true) : decode ((encode i).setWidth 32) = i :=
  decodeInvertsEncodeForAllParameters encoding i defaultParametersAllowed hwf

/-! ### The encoder on a decoded word -/

/-- A word of the first class is its pattern and its two fields: with the mask they make up all 24 bits. -/
theorem warWord_fieldOf {w : InsnWord} (h : encoding.isWar w = true) :
    encoding.warWord (fieldOf w encoding.warTLsb 4) (fieldOf w encoding.warIdLsb 8) = w := by
  have hcover : encoding.warMask ||| fieldMask encoding.warTLsb 4 ||| fieldMask encoding.warIdLsb 8 =
      BitVec.allOnes 24 := by decide
  rw [EncodingParams.isWar, beq_iff_eq] at h
  rw [EncodingParams.warWord, placeField_fieldOf, placeField_fieldOf, ← h, ← BitVec.and_or_distrib_left,
    ← BitVec.and_or_distrib_left, hcover, BitVec.and_allOnes]

/-- A word of the second class is its pattern and its three fields, in the same way. -/
theorem casWord_fieldOf {w : InsnWord} (h : encoding.isCas w = true) :
    encoding.casWord (fieldOf w encoding.casTLsb 4) (fieldOf w encoding.casSLsb 4)
      (fieldOf w encoding.casImmLsb 8) = w := by
  have hcover : encoding.casMask ||| fieldMask encoding.casTLsb 4 ||| fieldMask encoding.casSLsb 4 |||
      fieldMask encoding.casImmLsb 8 = BitVec.allOnes 24 := by decide
  rw [EncodingParams.isCas, beq_iff_eq] at h
  rw [EncodingParams.casWord, placeField_fieldOf, placeField_fieldOf, placeField_fieldOf, ← h,
    ← BitVec.and_or_distrib_left, ← BitVec.and_or_distrib_left, ← BitVec.and_or_distrib_left, hcover,
    BitVec.and_allOnes]

/-- Whichever of the two write rows the id selects, the row is well formed and its word is the format's. -/
theorem rowOf_writeAuxiliaryRegister (w : InsnWord) (t : SlotIndex) (id : BitVec 8) :
    (rowOf w (.writeAuxiliaryRegister t id)).wf = true ∧
      encode (rowOf w (.writeAuxiliaryRegister t id)) = encoding.warWord t id := by
  rw [rowOf]
  split
  · next hid => exact ⟨rfl, by rw [hid]; rfl⟩
  · next hid => exact ⟨bne_iff_ne.2 hid, rfl⟩

/-- Settles O2, by the two class tests in the decoder's order. -/
theorem encodeInvertsDecode : Obligations.EncodeInvertsDecode := by
  intro w
  rw [decode, decodeWith_setWidth]
  cases hwar : encoding.isWar w with
  | true =>
    obtain ⟨hwf, henc⟩ := rowOf_writeAuxiliaryRegister w (fieldOf w encoding.warTLsb 4) (fieldOf w encoding.warIdLsb 8)
    rw [decodeShape_of_isWar (by rw [setWidth_setWidth_insn, hwar]), setWidth_setWidth_insn]
    exact ⟨hwf, henc.trans (warWord_fieldOf hwar)⟩
  | false =>
    cases hcas : encoding.isCas w with
    | true =>
      rw [decodeShape_of_isCas (by rw [setWidth_setWidth_insn, hwar]) (by rw [setWidth_setWidth_insn, hcas]),
        setWidth_setWidth_insn]
      exact ⟨rfl, casWord_fieldOf hcas⟩
    | false =>
      rw [decodeShape_eq_unrecognized_iff.2 (by simp [hwar, hcas])]
      exact ⟨by simp [rowOf, Instr.wf, Instr.wfWith, hwar, hcas], rfl⟩

end Sys2Proof
end

section
/-! Instructions as bytes (R50, R51), and the decoder on the words of the default parameters, field by field (R52, R60, R87). -/

namespace Sys2Proof

/-! ### The bytes of an instruction (R50, R51) -/

theorem insnOfBytes_bytes (w : InsnWord) :
    insnOfBytes (w.extractLsb' 0 8) (w.extractLsb' 8 8) (w.extractLsb' 16 8) = w := by
  simp only [insnOfBytes, BitVec.extractLsb'_append_extractLsb'_eq_extractLsb', BitVec.extractLsb'_eq_self]

theorem decodeBytes_bytesOfInsn (w : InsnWord) (rest : List Byte) :
    decodeBytes (bytesOfInsn w ++ rest) = .ok (decode (w.setWidth 32), rest) := by
  simp only [bytesOfInsn, List.cons_append, List.nil_append, decodeBytes, insnOfBytes_bytes]

/-- Settles O3: the three bytes are the word, and the decoder inverts the encoder. -/
theorem instructionBytesDecodeBack : Obligations.InstructionBytesDecodeBack := by
  intro i rest hwf
  refine ⟨rfl, ?_⟩
  rw [encodeBytes, decodeBytes_bytesOfInsn, decode_encode hwf]

/-- Settles O9: the decoder evaluates on each list of bytes. -/
theorem writtenOutWordsDecode : Obligations.WrittenOutWordsDecode := by
  unfold Obligations.WrittenOutWordsDecode
  decide

/-! ### The decoder looks at 24 bits alone (R60) -/

theorem decodeShape_congr (p : EncodingParams) {word word' : Word} (h : word.setWidth 24 = word'.setWidth 24) :
    decodeShape p word = decodeShape p word' := by
  rw [decodeShape, h, decodeShape]

/-- Settles O8: the mask keeps all 24 bits that the decoder takes. -/
theorem decoderIgnoresHighByte : Obligations.DecoderIgnoresHighByte := by
  intro p word
  have hmask : (0x00FFFFFF : Word).setWidth 24 = BitVec.allOnes 24 := rfl
  apply decodeShape_congr
  rw [BitVec.setWidth_and, hmask, BitVec.and_allOnes]

/-! ### The default formats field by field (R52) -/

theorem decodeShape_of_war_fields {w : InsnWord} (hhigh : fieldOf w 16 8 = 0x13) (hlow : fieldOf w 0 4 = 0) :
    decodeShape encoding (w.setWidth 32) = .writeAuxiliaryRegister (fieldOf w 4 4) (fieldOf w 8 8) := by
  rw [decodeShape_of_isWar (by rw [setWidth_setWidth_insn, encoding_isWar_iff.2 ⟨hhigh, hlow⟩]), setWidth_setWidth_insn]
  rfl

theorem decodeShape_of_cas_fields {w : InsnWord} (hmid : fieldOf w 12 4 = 0xE) (hlow : fieldOf w 0 4 = 2) :
    decodeShape encoding (w.setWidth 32) =
      .compareAndSwapWord (fieldOf w 4 4) (fieldOf w 8 4) (fieldOf w 16 8) := by
  have hcas : encoding.isCas w = true := encoding_isCas_iff.2 ⟨hmid, hlow⟩
  have hwar : encoding.isWar w = false := Bool.eq_false_iff.2 fun hwar => classesDisjoint.2 w ⟨hwar, hcas⟩
  rw [decodeShape_of_isCas (by rw [setWidth_setWidth_insn, hwar]) (by rw [setWidth_setWidth_insn, hcas]),
    setWidth_setWidth_insn]
  rfl

theorem decodeShape_of_neither {w : InsnWord} (hwar : ¬ (fieldOf w 16 8 = 0x13 ∧ fieldOf w 0 4 = 0))
    (hcas : ¬ (fieldOf w 12 4 = 0xE ∧ fieldOf w 0 4 = 2)) :
    decodeShape encoding (w.setWidth 32) = .unrecognized := by
  rw [decodeShape_eq_unrecognized_iff, setWidth_setWidth_insn, encoding_isWar_iff, encoding_isCas_iff]
  exact not_or.2 ⟨hwar, hcas⟩

/-- The fields of a word whose three bytes, from the highest on, are `b2`, `b1` and the nibbles `t` and `c`. -/
theorem fieldOf_insnOfBytes (t c : BitVec 4) (b1 b2 : Byte) :
    fieldOf (insnOfBytes (t ++ c) b1 b2) 16 8 = b2 ∧ fieldOf (insnOfBytes (t ++ c) b1 b2) 8 8 = b1 ∧
    fieldOf (insnOfBytes (t ++ c) b1 b2) 12 4 = b1.extractLsb' 4 4 ∧
    fieldOf (insnOfBytes (t ++ c) b1 b2) 8 4 = b1.extractLsb' 0 4 ∧
    fieldOf (insnOfBytes (t ++ c) b1 b2) 4 4 = t ∧ fieldOf (insnOfBytes (t ++ c) b1 b2) 0 4 = c := by
  have low (lsb n : Nat) (h : lsb + n ≤ 8) :
      fieldOf (insnOfBytes (t ++ c) b1 b2) lsb n = (t ++ c).extractLsb' lsb n :=
    BitVec.extractLsb'_append_eq_of_add_le h
  have mid (lsb n : Nat) (h : lsb + n ≤ 8) :
      fieldOf (insnOfBytes (t ++ c) b1 b2) (8 + lsb) n = b1.extractLsb' lsb n := by
    refine (BitVec.extractLsb'_append_eq_of_le (Nat.le_add_right 8 lsb)).trans ?_
    rw [Nat.add_sub_cancel_left, BitVec.extractLsb'_append_eq_of_add_le h]
  refine ⟨?_, (mid 0 8 (by decide)).trans BitVec.extractLsb'_eq_self, mid 4 4 (by decide), mid 0 4 (by decide),
    (low 4 4 (by decide)).trans BitVec.extractLsb'_append_eq_left,
    (low 0 4 (by decide)).trans BitVec.extractLsb'_append_eq_right⟩
  exact (BitVec.extractLsb'_append_eq_of_le (by decide)).trans BitVec.extractLsb'_append_eq_left

/-! ### The flip of one bit -/

theorem getLsbD_oneBit {n : Nat} (k : Nat) {i : Nat} (hi : i < n) :
    ((1 : BitVec n) <<< k).getLsbD i = decide (k = i) := by
  have h : ((1 : BitVec n) <<< k).getLsbD i = (decide (k < n) && decide (k = i)) := BitVec.getLsbD_twoPow k i
  rw [h]
  by_cases hk : k = i <;> simp [hk, hi]

theorem fieldOf_flip_outside (w : InsnWord) {lsb n k : Nat} (hin : lsb + n ≤ 24) (h : k < lsb ∨ lsb + n ≤ k) :
    fieldOf (w ^^^ (1 : InsnWord) <<< k) lsb n = fieldOf w lsb n := by
  apply BitVec.eq_of_getLsbD_eq
  intro i hi
  rw [getLsbD_fieldOf, getLsbD_fieldOf, BitVec.getLsbD_xor, getLsbD_oneBit k (by omega),
    decide_eq_false (show ¬ k = lsb + i by omega), Bool.xor_false]

theorem fieldOf_flip_inside (w : InsnWord) {lsb n k : Nat} (hin : lsb + n ≤ 24) (hk : lsb ≤ k) :
    fieldOf (w ^^^ (1 : InsnWord) <<< k) lsb n = fieldOf w lsb n ^^^ (1 : BitVec n) <<< (k - lsb) := by
  apply BitVec.eq_of_getLsbD_eq
  intro i hi
  have hbit : (k = lsb + i) = (k - lsb = i) := by rw [eq_iff_iff]; omega
  rw [getLsbD_fieldOf, BitVec.getLsbD_xor, BitVec.getLsbD_xor, getLsbD_oneBit k (by omega), getLsbD_oneBit _ hi,
    getLsbD_fieldOf, decide_eq_true hi, Bool.true_and, Bool.true_and]
  simp only [hbit]

/-- A flip inside a field changes the field. -/
theorem fieldOf_flip_ne (w : InsnWord) {lsb n k : Nat} (hin : lsb + n ≤ 24) (hk : lsb ≤ k) (hkn : k < lsb + n) :
    fieldOf (w ^^^ (1 : InsnWord) <<< k) lsb n ≠ fieldOf w lsb n := by
  intro h
  have hbit := congrArg (BitVec.getLsbD · (k - lsb)) h
  rw [fieldOf_flip_inside w hin hk, BitVec.getLsbD_xor, getLsbD_oneBit _ (by omega), decide_eq_true rfl] at hbit
  simp at hbit

/-- A flip in the low nibble turns the low nibbles of the two classes into each other at bit 1 alone. -/
theorem low_nibble_flip : ∀ k < 4,
    ((0 : BitVec 4) ^^^ 1 <<< k = 2 ↔ k = 1) ∧ ((2 : BitVec 4) ^^^ 1 <<< k = 0 ↔ k = 1) := by
  decide

theorem encoding_warMask_bits {k : Nat} (h : encoding.warMask.getLsbD k = true) : k < 4 ∨ (16 ≤ k ∧ k < 24) :=
  (show ∀ k < 24, encoding.warMask.getLsbD k = true → k < 4 ∨ (16 ≤ k ∧ k < 24) by decide) k
    (BitVec.lt_of_getLsbD h) h

theorem encoding_casMask_bits {k : Nat} (h : encoding.casMask.getLsbD k = true) : k < 4 ∨ (12 ≤ k ∧ k < 16) :=
  (show ∀ k < 24, encoding.casMask.getLsbD k = true → k < 4 ∨ (12 ≤ k ∧ k < 16) by decide) k
    (BitVec.lt_of_getLsbD h) h

/-! ### The flips of one masked bit of a recognized word (R87) -/

/-- A flip in the low nibble leaves the class, or at bit 1 enters the other one; a flip in the high byte leaves the class. -/
theorem decodeShape_war_flip {w : InsnWord} (hhigh : fieldOf w 16 8 = 0x13) (hlow : fieldOf w 0 4 = 0) {k : Nat}
    (hk : encoding.warMask.getLsbD k = true) :
    decodeShape encoding ((w ^^^ (1 : InsnWord) <<< k).setWidth 32) =
      if k = 1 ∧ fieldOf w 12 4 = 0xE then .compareAndSwapWord (fieldOf w 4 4) (fieldOf w 8 4) 0x13
      else .unrecognized := by
  have outside {lsb n : Nat} (hin : lsb + n ≤ 24) (h : k < lsb ∨ lsb + n ≤ k) := fieldOf_flip_outside w hin h
  obtain hk | ⟨hk16, hk24⟩ := encoding_warMask_bits hk
  · have hne := fieldOf_flip_ne w (n := 4) (by decide) (Nat.zero_le k) (by omega)
    have hnibble := fieldOf_flip_inside w (n := 4) (by decide) (Nat.zero_le k)
    rw [hlow] at hne hnibble
    have htwo := (hnibble.congr_left (z := 2)).trans (low_nibble_flip k hk).1
    have hmid := outside (lsb := 12) (n := 4) (by decide) (.inl (by omega))
    split
    · next h =>
      rw [decodeShape_of_cas_fields (hmid.trans h.2) (htwo.2 h.1), outside (by decide) (by omega),
        outside (by decide) (by omega), outside (by decide) (by omega), hhigh]
    · next h =>
      exact decodeShape_of_neither (fun hwar => hne hwar.2) fun hcas => h ⟨htwo.1 hcas.2, hmid ▸ hcas.1⟩
  · have hne := fieldOf_flip_ne w (n := 8) (by decide) hk16 hk24
    have hnibble := outside (lsb := 0) (n := 4) (by decide) (.inr (by omega))
    rw [hhigh] at hne
    rw [hlow] at hnibble
    rw [if_neg (by omega)]
    refine decodeShape_of_neither (fun hwar => hne hwar.1) fun hcas => ?_
    exact absurd (hnibble.symm.trans hcas.2) (by decide)

/-- A flip in the low nibble leaves the class, or at bit 1 enters the other one; a flip in bits 15:12 leaves the class. -/
theorem decodeShape_casw_flip {w : InsnWord} (hmid : fieldOf w 12 4 = 0xE) (hlow : fieldOf w 0 4 = 2) {k : Nat}
    (hk : encoding.casMask.getLsbD k = true) :
    decodeShape encoding ((w ^^^ (1 : InsnWord) <<< k).setWidth 32) =
      if k = 1 ∧ fieldOf w 16 8 = 0x13 then .writeAuxiliaryRegister (fieldOf w 4 4) (fieldOf w 8 8)
      else .unrecognized := by
  have outside {lsb n : Nat} (hin : lsb + n ≤ 24) (h : k < lsb ∨ lsb + n ≤ k) := fieldOf_flip_outside w hin h
  obtain hk | ⟨hk12, hk16⟩ := encoding_casMask_bits hk
  · have hne := fieldOf_flip_ne w (n := 4) (by decide) (Nat.zero_le k) (by omega)
    have hnibble := fieldOf_flip_inside w (n := 4) (by decide) (Nat.zero_le k)
    rw [hlow] at hne hnibble
    have hzero := (hnibble.congr_left (z := 0)).trans (low_nibble_flip k hk).2
    have hhigh := outside (lsb := 16) (n := 8) (by decide) (.inl (by omega))
    split
    · next h =>
      rw [decodeShape_of_war_fields (hhigh.trans h.2) (hzero.2 h.1), outside (by decide) (by omega),
        outside (by decide) (by omega)]
    · next h =>
      exact decodeShape_of_neither (fun hwar => h ⟨hzero.1 hwar.2, hhigh ▸ hwar.1⟩) fun hcas => hne hcas.2
  · have hne := fieldOf_flip_ne w (n := 4) (by decide) hk12 hk16
    have hnibble := outside (lsb := 0) (n := 4) (by decide) (.inr (by omega))
    rw [hmid] at hne
    rw [hlow] at hnibble
    rw [if_neg (by omega)]
    refine decodeShape_of_neither (fun hwar => ?_) fun hcas => hne hcas.1
    exact absurd (hnibble.symm.trans hwar.2) (by decide)

/-- Settles O6: the fixed words evaluate, and the statements about all words go by the fields that the two class tests read. -/
theorem decoderCornerCases : Obligations.DecoderCornerCases := by
  refine ⟨by decide, by decide, fun w hlow hhigh => ?war, by decide, fun w hlow hmid => ?casw, by decide,
    fun t id k hk => ?warFlip, fun t s off k hk => ?caswFlip, fun high w => ?high, by decide, by decide, by decide,
    by decide⟩
  case war => exact decodeShape_of_war_fields hhigh hlow
  case casw => exact decodeShape_of_cas_fields hmid hlow
  case warFlip =>
    have hword : (0x13 : Byte) ++ id ++ t ++ (0 : BitVec 4) = insnOfBytes (t ++ (0 : BitVec 4)) id 0x13 :=
      BitVec.append_assoc
    obtain ⟨hhigh, -, hmid, hbase, ht, hlow⟩ := fieldOf_insnOfBytes t 0 id 0x13
    rw [hword, decodeShape_war_flip hhigh hlow hk, hmid, hbase, ht]
  case caswFlip =>
    have hword : off ++ (0xE : BitVec 4) ++ s ++ t ++ (2 : BitVec 4) =
        insnOfBytes (t ++ (2 : BitVec 4)) ((0xE : BitVec 4) ++ s) off := by
      rw [BitVec.append_assoc, BitVec.append_assoc (x₁ := off)]
      rfl
    obtain ⟨hhigh, hid, hmid, -, ht, hlow⟩ := fieldOf_insnOfBytes t 2 ((0xE : BitVec 4) ++ s) off
    rw [hword, decodeShape_casw_flip (hmid.trans BitVec.extractLsb'_append_eq_left) hlow hk, hhigh, hid, ht]
  case high =>
    apply decodeShape_congr
    rw [setWidth_setWidth_insn]
    exact BitVec.setWidth_append_eq_right

end Sys2Proof
end

section
/-! Every step keeps the machine's invariant, its memory map and its cores (R17, R35, R73, R122, R161). -/

namespace Sys2Proof.Machine

/-! ### What an invocation keeps of the invariant -/

/-- From `s` to `u` the map is kept, memory stays in canonical form, and the acting core's invocation stands as it should. -/
structure Coherent (s u : State) : Prop where
  map : u.map = s.map
  memWf : s.mem.wf = true → u.mem.wf = true
  flightOk : u.inst.flightOk u.map = true

theorem Instance.flightOk_of_none {m : MemoryMap} {i : Instance} (h : i.flight = none) : i.flightOk m = true := by
  rw [Instance.flightOk, h]

/-- The high byte of a fetched word is zero (R71, R73). -/
theorem highByte_setWidth (w : InsnWord) : ((w.setWidth 32).extractLsb' 24 8 == 0) = true := by
  rw [beq_iff_eq]
  apply BitVec.eq_of_getLsbD_eq
  intro i _
  simp [BitVec.getLsbD_extractLsb', BitVec.getLsbD_setWidth]

/-- From `s` to `u` an invocation has ended: the map is kept, memory stays in canonical form, and none is in progress. -/
structure Ended (s u : State) : Prop where
  map : u.map = s.map
  memWf : s.mem.wf = true → u.mem.wf = true
  flight : u.inst.flight = none

theorem Coherent.of_ended {s u : State} (h : Ended s u) : Coherent s u :=
  ⟨h.map, h.memWf, Instance.flightOk_of_none h.flight⟩

/-- An end is one from every state with the same map and memory. -/
theorem Ended.of_start {s t u : State} (h : Ended t u) (hmap : t.map = s.map) (hmem : t.mem = s.mem) : Ended s u :=
  ⟨h.map.trans hmap, fun hwf => h.memWf (hmem ▸ hwf), h.flight⟩

/-- The dispatcher's resumption moves only the pc. -/
theorem Ended.of_dispatch {o : Host.Outcome State Fault Refusal} {s u : State} (h : dispatch o = .next u)
    (ho : ∀ v, o = .next v → Ended s v) : Ended s u := by
  obtain ⟨v, hv, rfl⟩ := dispatch_next.1 h
  have e := ho v hv
  split
  · exact ⟨e.map, e.memWf, e.flight⟩
  · exact e

theorem caswFinish_memWf {l : Loaded} {s u : State} (h : caswFinish l s = .next u) (hwf : s.mem.wf = true) :
    u.mem.wf = true := by
  obtain ⟨-, -, rfl⟩ | ⟨-, rfl⟩ := caswFinish_next h
  · exact Memory.wf_putWord hwf l.address l.newValue
  · exact hwf

theorem exec_memWf {i : Instr} {s u : State} (h : exec i s = .next u) (hwf : s.mem.wf = true) : u.mem.wf = true := by
  cases i with
  | war t => cases h; exact hwf
  | warUnwatched t id => cases h; exact hwf
  | casw t b off =>
    obtain ⟨-, rfl⟩ := exec_casw_next_iff.1 h
    dsimp only [State.afterCasw]
    split
    · exact Memory.wf_putWord hwf _ _
    · exact hwf
  | unrec w => cases h; exact hwf

/-- An effect begins with no invocation in progress, and leaves none. -/
theorem exec_ended {i : Instr} {s u : State} (h : exec i s = .next u) (hfl : s.inst.flight = none) : Ended s u := by
  obtain ⟨-, hflight, -, hmap, -⟩ := (exec_frame h).rest
  exact ⟨hmap, exec_memWf h, hflight.trans hfl⟩

theorem caswFinish_ended {l : Loaded} {s u : State} (h : caswFinish l s = .next u) (hfl : s.inst.flight = none) :
    Ended s u := by
  obtain ⟨-, hflight, -, hmap, -⟩ := caswFinish_sameRest h
  exact ⟨hmap, caswFinish_memWf h, hflight.trans hfl⟩

/-- An invocation run to its end, from whichever stage it stands at, leaves none in progress. -/
theorem complete_ended {s u : State} (h : complete s = .next u) : Ended s u := by
  unfold complete at h
  split at h
  · next hfl => exact (exec_ended (handle_next h) hfl).of_start rfl rfl
  · split at h
    · cases h
    · next hsecond =>
      obtain ⟨-, -, rfl⟩ := fetchSecond_ok.1 hsecond
      exact (exec_ended (i := decode _) h rfl).of_start rfl rfl
  · next word _ => exact (exec_ended (i := decode word) h rfl).of_start rfl rfl
  · exact (caswFinish_ended h rfl).of_start rfl rfl

/-- A CASW stops after its load with its address aligned and `Readable` and the value to store still its slot's (R35, R122). -/
theorem eventAfterFetch_coherent {word : Word} {s u : State} (h : eventAfterFetch word (s.setFlight none) = .next u) :
    Coherent s u := by
  have ended {i : Instr} (h : dispatch (exec i (s.setFlight none)) = .next u) : Coherent s u :=
    .of_ended (.of_dispatch h fun _ hv => (exec_ended hv rfl).of_start rfl rfl)
  unfold eventAfterFetch at h
  cases hd : decode word with
  | casw t b off =>
    simp only [hd] at h
    split at h
    · cases h
    · next hload =>
      obtain ⟨ha, hr, rfl, rfl⟩ := caswLoad_ok.1 hload
      cases h
      refine ⟨rfl, id, ?_⟩
      simp only [Instance.flightOk, State.setFlight_flight, Bool.and_eq_true, beq_iff_eq]
      exact ⟨⟨ha, hr⟩, rfl⟩
  | war t => simp only [hd] at h; exact ended h
  | warUnwatched t id => simp only [hd] at h; exact ended h
  | unrec w => simp only [hd] at h; exact ended h

/-- One memory event, by the stage at which the invocation stands, leaves it at a stage that is as it should be. -/
theorem oneEvent_coherent {s u : State} (h : oneEvent s = .next u) : Coherent s u := by
  unfold oneEvent at h
  split at h
  · split at h
    · cases h
    · next hfirst =>
      obtain ⟨-, rfl, rfl⟩ := fetchFirst_ok.1 hfirst
      split at h
      · cases h
        exact ⟨rfl, id, highByte_setWidth _⟩
      · next ha =>
        cases h
        exact ⟨rfl, id, by simpa [Instance.flightOk] using ha⟩
  · split at h
    · cases h
    · next hsecond =>
      obtain ⟨-, rfl, rfl⟩ := fetchSecond_ok.1 hsecond
      cases h
      exact ⟨rfl, id, highByte_setWidth _⟩
  · exact eventAfterFetch_coherent h
  · exact .of_ended (.of_dispatch h fun _ hv => (caswFinish_ended hv rfl).of_start rfl rfl)

/-! ### The whole machine -/

theorem State.inv_iff {s : State} :
    s.inv = true ↔ s.mem.wf = true ∧ s.cores.Nodup ∧ ∀ i ∈ s.instances, i.flightOk s.map = true := by
  rw [State.inv, Bool.and_eq_true, Bool.and_eq_true, decide_eq_true_eq, List.all_eq_true, and_assoc]

/-- What every step keeps: the map, the canonical form of memory, the machine's cores, and that the invocations in progress
stand as they should. -/
structure StepKeeps (s u : State) : Prop where
  map : u.map = s.map
  memWf : s.mem.wf = true → u.mem.wf = true
  cores : u.cores.Perm s.cores
  flights : (∀ i ∈ s.instances, i.flightOk s.map = true) → ∀ i ∈ u.instances, i.flightOk u.map = true

/-- A step of the acting core alone. -/
theorem StepKeeps.of_coherent {s u : State} (h : Coherent s u) (hcore : u.inst.core = s.inst.core)
    (hothers : u.others = s.others) : StepKeeps s u where
  map := h.map
  memWf := h.memWf
  cores := by rw [State.cores, State.cores, State.instances, State.instances, List.map_cons, List.map_cons, hcore, hothers]
  flights hall i hi := by
    obtain rfl | hi := List.mem_cons.1 hi
    · exact h.flightOk
    · rw [h.map]
      exact hall i (List.mem_cons_of_mem _ (hothers ▸ hi))

/-- A step that rearranges the machine's instances. -/
theorem StepKeeps.of_perm {s u : State} (hmap : u.map = s.map) (hmem : u.mem = s.mem)
    (hp : u.instances.Perm s.instances) : StepKeeps s u where
  map := hmap
  memWf hwf := hmem ▸ hwf
  cores := hp.map Instance.core
  flights hall i hi := by
    rw [hmap]
    exact hall i (hp.mem_iff.1 hi)

theorem selectCore_keeps {s u : State} {k : Nat} (h : selectCore s k = .next u) : StepKeeps s u := by
  have hp := selectCore_instances_perm h
  obtain ⟨-, rfl⟩ | ⟨-, i, before, after, -, -, rfl⟩ := selectCore_next h
  · exact .of_perm rfl rfl hp
  · exact .of_perm rfl rfl hp

theorem environment_keeps {i : Input} {s u : State} (h : environment i s = .next u) : StepKeeps s u := by
  cases i with
  | capture illegal ctx =>
    simp only [environment, Option.isSome_iff_ne_none] at h
    split at h
    · cases h
    · next hfl =>
      split at h <;> cases h
      exact .of_coherent (.of_ended ⟨rfl, id, not_not.1 hfl⟩) rfl rfl
  | select k => exact selectCore_keeps h
  | event =>
    have e := oneEvent_varEffect h
    exact .of_coherent (oneEvent_coherent h) e.core e.others
  | agentWrite a bytes =>
    cases h
    exact ⟨rfl, fun hwf => Memory.wf_putBytes hwf a bytes, .refl _, id⟩
  | reset =>
    simp only [environment, Option.isSome_iff_ne_none] at h
    split at h <;> cases h
    next hfl => exact .of_coherent (.of_ended ⟨rfl, id, not_not.1 hfl⟩) rfl rfl

/-- Both kinds of step keep the parts of the invariant: an invocation run to its end, and an input of the environment. -/
theorem step_keeps {s u : State} (h : step s = .next u) : StepKeeps s u := by
  unfold step at h
  split at h
  · have e : VarEffect s.running s u := .of_dispatch h fun _ => complete_varEffect
    exact .of_coherent (.of_ended (.of_dispatch h fun _ => complete_ended)) e.core e.others
  · next i rest _ =>
    have hk := environment_keeps h
    exact ⟨hk.map, hk.memWf, hk.cores, hk.flights⟩

/-- Settles O43: the three parts of the invariant, each kept by every step. -/
theorem stepKeepsInvariant : Obligations.StepKeepsInvariant := by
  intro s u hinv h
  obtain ⟨hwf, hnodup, hflights⟩ := State.inv_iff.1 hinv
  have hk := step_keeps h
  exact State.inv_iff.2 ⟨hk.memWf hwf, hk.cores.nodup_iff.2 hnodup, hk.flights hflights⟩

/-- Settles O45: the two parts that need no invariant. -/
theorem stepKeepsMapAndCores : Obligations.StepKeepsMapAndCores := fun _ _ h =>
  ⟨(step_keeps h).map, (step_keeps h).cores⟩

/-- Settles O44: a single core with no invocation in progress, and memory with nothing listed. -/
theorem resetMeetsInvariant : Obligations.ResetMeetsInvariant := by
  refine State.inv_iff.2 ⟨State.reset_mem_wf, by decide, fun i hi => ?_⟩
  rw [List.mem_singleton.1 hi]
  exact Instance.flightOk_of_none rfl

end Sys2Proof.Machine
end

section
/-! An invocation stopped after a memory event and resumed undisturbed ends as the whole one (R44, R106, R183). -/

namespace Sys2Proof.Machine

/-! ### An invocation run to its end, by the stage at which it stands -/

/-- With no input pending, a step runs the invocation to its end. -/
theorem step_of_no_input {s : State} (hin : s.inputs = []) : step s = dispatch (complete s) := by
  rw [step, hin]

theorem complete_of_no_flight {s : State} (hfl : s.inst.flight = none) : complete s = handle s := by
  rw [complete, hfl]

theorem complete_of_firstWord_ok {s u : State} {w0 w : Word} (hfl : s.inst.flight = some (.firstWord w0))
    (h : fetchSecond (s.setFlight none) w0 = .ok (w, u)) : complete s = exec (decode w) u := by
  rw [complete, hfl]
  dsimp only
  rw [h]
  rfl

theorem complete_of_firstWord_error {s : State} {w0 : Word} {f : Fault} (hfl : s.inst.flight = some (.firstWord w0))
    (h : fetchSecond (s.setFlight none) w0 = .error f) : complete s = .fault f := by
  rw [complete, hfl]
  dsimp only
  rw [h]
  rfl

theorem complete_of_fetched {s : State} {w : Word} (hfl : s.inst.flight = some (.fetched w)) :
    complete s = exec (decode w) (s.setFlight none) := by
  rw [complete, hfl]
  rfl

theorem complete_of_loaded {s : State} {l : Loaded} (hfl : s.inst.flight = some (.loaded l)) :
    complete s = caswFinish l (s.setFlight none) := by
  rw [complete, hfl]

theorem fetch_of_aligned {s u : State} {w0 : Word} (h : fetchFirst s = .ok (w0, u))
    (ha : aligned s.inst.ctx.pc = true) : fetch s = .ok (assembleAligned w0, u) := by
  rw [fetch, h]
  exact if_pos ha

theorem fetch_of_not_aligned {s u : State} {w0 : Word} (h : fetchFirst s = .ok (w0, u))
    (ha : ¬ aligned s.inst.ctx.pc = true) : fetch s = fetchSecond u w0 := by
  rw [fetch, h]
  exact if_neg ha

theorem handle_of_fetch_ok {s u : State} {w : Word} (h : fetch s.clearBus = .ok (w, u)) :
    handle s = exec (decode w) u := by
  rw [handle, h]
  rfl

theorem handle_of_fetch_error {s : State} {f : Fault} (h : fetch s.clearBus = .error f) : handle s = .fault f := by
  rw [handle, h]
  rfl

theorem exec_casw_of_load_ok {t b : SlotIndex} {off : BitVec 8} {s u : State} {l : Loaded}
    (h : caswLoad t b off s = .ok (l, u)) : exec (.casw t b off) s = caswFinish l u := by
  rw [exec, execCasw, h]

theorem exec_casw_of_load_error {t b : SlotIndex} {off : BitVec 8} {s : State} {f : Fault}
    (h : caswLoad t b off s = .error f) : exec (.casw t b off) s = .fault f := by
  rw [exec, execCasw, h]
  rfl

theorem exec_ne_refused (i : Instr) (s : State) (r : Refusal) : exec i s ≠ .refused r := by
  cases i with
  | casw t b off => exact exec_casw_ne_refused t b off s r
  | war t => exact fun h => nomatch h
  | warUnwatched t id => exact fun h => nomatch h
  | unrec w => exact fun h => nomatch h

theorem caswFinish_ne_refused (l : Loaded) (s : State) (r : Refusal) : caswFinish l s ≠ .refused r := by
  rw [caswFinish_eq]
  split
  · split <;> exact fun h => nomatch h
  · exact fun h => nomatch h

/-! ### One event and then the rest -/

/-- `u` is `s` with the invocation further on, and to complete it from there gives what it gives from `s`. -/
structure PausedOf (s u : State) : Prop where
  flight : u.inst.flight.isSome = true
  inputs : u.inputs = s.inputs
  complete : complete u = complete s

/-- What the outcome `o` of the next memory event of `s` says of the whole invocation: either it is still in progress, or the
outcome is that of the whole. -/
def EndsAlike (s : State) : Host.Outcome State Fault Refusal → Prop
  | .next u => PausedOf s u ∨ (u.inst.flight = none ∧ dispatch (complete s) = .next u)
  | .fault f => complete s = .fault f
  | .refused _ => False

/-- Where the event is the last one, its outcome is that of the whole, which ends the invocation and is not refused. -/
theorem EndsAlike.of_last {s : State} {o : Host.Outcome State Fault Refusal} (hs : complete s = o)
    (hnext : ∀ u, o = .next u → Ended s u) (hrefused : ∀ r, o ≠ .refused r) : EndsAlike s (dispatch o) := by
  cases hd : dispatch o with
  | next u => exact .inr ⟨(Ended.of_dispatch hd hnext).flight, hs ▸ hd⟩
  | fault f => exact hs.trans (dispatch_fault.1 hd)
  | refused r => exact hrefused r (dispatch_refused.1 hd)

/-- Nothing done: the first event is the fetch's first read, after which the word is complete or its second half outstanding. -/
theorem endsAlike_of_no_flight {s : State} (hfl : s.inst.flight = none) : EndsAlike s (oneEvent s) := by
  have hs : complete s = handle s := complete_of_no_flight hfl
  have hresume (f : Flight) (e : BusEvent) :
      ((s.clearBus.record e).setFlight (some f)).setFlight none = s.clearBus.record e := by
    simp [State.setFlight, State.record, State.clearBus, ← hfl]
  rw [oneEvent, hfl]
  dsimp only
  cases hfirst : fetchFirst s.clearBus with
  | error f => exact hs.trans (handle_of_fetch_error (by rw [fetch, hfirst]))
  | ok r =>
    obtain ⟨w0, s1⟩ := r
    obtain ⟨-, -, rfl⟩ := fetchFirst_ok.1 hfirst
    dsimp only
    split
    · next ha =>
      have hfetch := fetch_of_aligned hfirst ha
      refine .inl ⟨rfl, rfl, ?_⟩
      rw [complete_of_fetched (State.setFlight_flight _ _), hresume, hs, handle_of_fetch_ok hfetch]
    · next ha =>
      have hfetch := fetch_of_not_aligned hfirst ha
      refine .inl ⟨rfl, rfl, ?_⟩
      cases hsecond : fetchSecond (s.clearBus.record (.read (alignedBase s.clearBus.inst.ctx.pc))) w0 with
      | error f =>
        rw [complete_of_firstWord_error (State.setFlight_flight _ _) (by rw [hresume, hsecond]), hs,
          handle_of_fetch_error (hfetch.trans hsecond)]
      | ok r =>
        rw [complete_of_firstWord_ok (State.setFlight_flight _ _) (by rw [hresume, hsecond]), hs,
          handle_of_fetch_ok (hfetch.trans hsecond)]

/-- Half fetched: the event is the fetch's second read, which does not depend on what marks the stage. -/
theorem endsAlike_of_firstWord {s : State} {w0 : Word} (hfl : s.inst.flight = some (.firstWord w0)) :
    EndsAlike s (oneEvent s) := by
  rw [oneEvent, hfl]
  dsimp only
  cases hsecond : fetchSecond s w0 with
  | error f =>
    have hwhole : fetchSecond (s.setFlight none) w0 = .error f :=
      fetchSecond_error.2 (fetchSecond_error (s := s) |>.1 hsecond)
    exact complete_of_firstWord_error hfl hwhole
  | ok r =>
    obtain ⟨w, s1⟩ := r
    obtain ⟨hr, hw, rfl⟩ := fetchSecond_ok.1 hsecond
    have hwhole : fetchSecond (s.setFlight none) w0 =
        .ok (w, (s.setFlight none).record (.read (nextAligned s.inst.ctx.pc))) :=
      fetchSecond_ok.2 ⟨hr, hw, rfl⟩
    refine .inl ⟨rfl, rfl, ?_⟩
    rw [complete_of_firstWord_ok hfl hwhole, complete_of_fetched (State.setFlight_flight _ _)]
    rfl

/-- Fetched: the event is a CASW's load, and for another row the whole effect. -/
theorem endsAlike_of_fetched {s : State} {w : Word} (hfl : s.inst.flight = some (.fetched w)) :
    EndsAlike s (oneEvent s) := by
  have hs : complete s = exec (decode w) (s.setFlight none) := complete_of_fetched hfl
  have last {i : Instr} (hi : complete s = exec i (s.setFlight none)) :
      EndsAlike s (dispatch (exec i (s.setFlight none))) :=
    .of_last hi (fun _ hu => (exec_ended hu rfl).of_start rfl rfl) (exec_ne_refused i _)
  rw [oneEvent, hfl]
  dsimp only
  rw [eventAfterFetch]
  cases hd : decode w with
  | casw t b off =>
    rw [hd] at hs
    dsimp only
    cases hload : caswLoad t b off (s.setFlight none) with
    | error f => exact hs.trans (exec_casw_of_load_error hload)
    | ok r =>
      obtain ⟨l, s1⟩ := r
      obtain ⟨-, -, -, rfl⟩ := caswLoad_ok.1 hload
      refine .inl ⟨rfl, rfl, ?_⟩
      rw [hs, exec_casw_of_load_ok hload, complete_of_loaded (State.setFlight_flight _ _)]
      rfl
  | war t => rw [hd] at hs; exact last hs
  | warUnwatched t id => rw [hd] at hs; exact last hs
  | unrec w => rw [hd] at hs; exact last hs

/-- Loaded: the event is the rest of the CASW. -/
theorem endsAlike_of_loaded {s : State} {l : Loaded} (hfl : s.inst.flight = some (.loaded l)) :
    EndsAlike s (oneEvent s) := by
  rw [oneEvent, hfl]
  exact .of_last (complete_of_loaded hfl) (fun _ hu => (caswFinish_ended hu rfl).of_start rfl rfl)
    (caswFinish_ne_refused l _)

theorem endsAlike_oneEvent (s : State) : EndsAlike s (oneEvent s) := by
  cases hfl : s.inst.flight with
  | none => exact endsAlike_of_no_flight hfl
  | some f =>
    cases f with
    | firstWord w0 => exact endsAlike_of_firstWord hfl
    | fetched w => exact endsAlike_of_fetched hfl
    | loaded l => exact endsAlike_of_loaded hfl

/-- Settles O48, by the stage at which the invocation stands before the event. -/
theorem pausedInvocationEndsAlike : Obligations.PausedInvocationEndsAlike := by
  intro s hin
  have hevent : step { s with inputs := [.event] } = oneEvent s := by
    rw [step_of_input rfl, ← hin]
    rfl
  have halike := endsAlike_oneEvent s
  rw [hevent, step_of_no_input hin]
  cases h : oneEvent s with
  | next u =>
    rw [h] at halike
    dsimp only
    obtain hpaused | ⟨hnone, hended⟩ := halike
    · rw [if_pos hpaused.flight, step_of_no_input (hpaused.inputs.trans hin), hpaused.complete]
    · rw [if_neg (by rw [hnone]; decide), hended]
  | fault f => rw [h] at halike; exact dispatch_fault.2 halike
  | refused r => rw [h] at halike; exact halike

end Sys2Proof.Machine
end

section
/-! Words in memory and what the fetch, the read and the write make of their bytes (R32, R36, R37, R72); memory in canonical form. -/

namespace Sys2Proof.Machine

/-! ### The bytes of a word in memory -/

/-- A word is read with its bytes in little-endian order (R32). -/
theorem Memory.bytes_word (m : Memory) (a : Word) :
    (m.word a).extractLsb' 0 8 = m.byte a ∧ (m.word a).extractLsb' 8 8 = m.byte (a + 1) ∧
    (m.word a).extractLsb' 16 8 = m.byte (a + 2) ∧ (m.word a).extractLsb' 24 8 = m.byte (a + 3) := by
  have hbyte (k : Nat) (hk : k < 4) : (m.word a).extractLsb' (8 * k) 8 = m.byte (a + BitVec.ofNat 32 k) := by
    apply BitVec.eq_of_getLsbD_eq
    intro i hi
    rw [BitVec.getLsbD_extractLsb', m.getLsbD_word a (by omega), show (8 * k + i) / 8 = k by omega,
      show (8 * k + i) % 8 = i by omega, decide_eq_true hi, Bool.true_and]
  refine ⟨?_, hbyte 1 (by decide), hbyte 2 (by decide), hbyte 3 (by decide)⟩
  exact (hbyte 0 (by decide)).trans (congrArg m.byte (BitVec.add_zero a))

/-- Settles O16: the port answers the word of four bytes, or the fault. -/
theorem memReadAnswersWord : Obligations.MemReadAnswersWord := by
  intro s a k _
  refine ⟨fun hr => ?readable, fun hr => ?denied⟩
  case readable => exact ⟨s.mem.word a, memRead_ok.2 ⟨hr, rfl, rfl⟩, s.mem.bytes_word a⟩
  case denied => exact memRead_error.2 ⟨hr, rfl⟩

/-- Settles O17: the laws of a stored word, and the port's fault. -/
theorem memWriteStoresWord : Obligations.MemWriteStoresWord := by
  intro s a v _
  refine ⟨fun hw => ?writable, fun hw => ?denied⟩
  case writable =>
    obtain ⟨h0, h1, h2, h3⟩ := s.mem.byte_putWord a v
    exact ⟨_, memWrite_ok.2 ⟨hw, rfl⟩, h0, h1, h2, h3, s.mem.word_putWord a v,
      fun c hc => s.mem.byte_putWord_other a v c hc, rfl, rfl, rfl, rfl, rfl, rfl, rfl⟩
  case denied => exact memWrite_error.2 ⟨hw, rfl⟩

/-- Settles O56: the one event is the store of a word's bytes. -/
theorem agentWriteIsOneEvent : Obligations.AgentWriteIsOneEvent := by
  intro s a v rest hin
  have hstep : step s = .next { s with mem := s.mem.putWord a v, inputs := rest } := step_of_input hin
  exact ⟨_, hstep, s.mem.word_putWord a v, fun c hc => s.mem.byte_putWord_other a v c hc, rfl, rfl, rfl, rfl⟩

/-- Settles O14: two slots are two places of one vector. -/
theorem slotLaws : Obligations.SlotLaws := by
  intro c i j v u
  refine ⟨c.get_set_same i v, fun hj => c.get_set_other hj v, ?_⟩
  simp [Context.set, Vector.set_set]

/-! ### The fetched word (R70, R72, P4) -/

/-- Where its words are `Readable`, a fetch answers the instruction at the pc whatever the alignment. -/
theorem fetch_eq_insnAt {s : State} (h : s.fetchable = true) : ∃ u, fetch s = .ok (s.insnAt.setWidth 32, u) := by
  obtain ⟨⟨w, u⟩, hfetch⟩ := fetch_of_fetchable h
  exact ⟨u, (fetch_ok hfetch).1 ▸ hfetch⟩

theorem bytes_insnOfBytes (b0 b1 b2 : Byte) :
    ((insnOfBytes b0 b1 b2).setWidth 32).extractLsb' 0 8 = b0 ∧
    ((insnOfBytes b0 b1 b2).setWidth 32).extractLsb' 8 8 = b1 ∧
    ((insnOfBytes b0 b1 b2).setWidth 32).extractLsb' 16 8 = b2 := by
  refine ⟨?_, ?_, ?_⟩ <;> rw [BitVec.extractLsb'_setWidth_of_le (by decide)]
  · exact BitVec.extractLsb'_append_eq_right
  · exact (BitVec.extractLsb'_append_eq_of_le (by decide)).trans BitVec.extractLsb'_append_eq_right
  · exact (BitVec.extractLsb'_append_eq_of_le (by decide)).trans BitVec.extractLsb'_append_eq_left

/-- Settles O11: the fetched word is one function of the three bytes at the pc. -/
theorem fetchIsAlignmentInvariant : Obligations.FetchIsAlignmentInvariant := by
  refine ⟨fun s hs => ?bytes, fun s t hs ht h0 h1 h2 => ?alike⟩
  case bytes =>
    obtain ⟨u, hfetch⟩ := fetch_eq_insnAt hs
    obtain ⟨h0, h1, h2⟩ := bytes_insnOfBytes (s.mem.byte s.inst.ctx.pc) (s.mem.byte (s.inst.ctx.pc + 1))
      (s.mem.byte (s.inst.ctx.pc + 2))
    exact ⟨_, u, hfetch, h0, h1, h2, eq_of_beq (highByte_setWidth s.insnAt)⟩
  case alike =>
    obtain ⟨u, hu⟩ := fetch_eq_insnAt hs
    obtain ⟨v, hv⟩ := fetch_eq_insnAt ht
    have hinsn : s.insnAt = t.insnAt := by rw [State.insnAt, State.insnAt, h0, h1, h2]
    exact ⟨_, u, v, hu, hinsn ▸ hv⟩

/-! ### Memory in canonical form (log 4) -/

theorem Memory.pairwise_of_wf {m : Memory} (h : m.wf = true) : m.Pairwise (·.1 < ·.1) := by
  induction m with
  | nil => exact .nil
  | cons c rest ih =>
    obtain ⟨-, -, hlt, hrest⟩ := (Memory.wf_cons c rest).1 h
    exact .cons hlt (ih hrest)

theorem Memory.get_eq_unlisted {m : Memory} {a : Nat} (h : ∀ c ∈ m, a < c.1) : Memory.get m a = Config.unlistedByte := by
  induction m with
  | nil => rfl
  | cons c rest ih =>
    rw [Memory.get, if_neg (Nat.ne_of_gt (h c List.mem_cons_self)), ih fun d hd => h d (List.mem_cons_of_mem c hd)]

/-- In canonical form the listed cells are the addresses that read as something else than an unlisted one. -/
theorem Memory.mem_iff_of_wf {m : Memory} (h : m.wf = true) {a : Nat} {b : Byte} :
    (a, b) ∈ m ↔ Memory.get m a = b ∧ b ≠ Config.unlistedByte := by
  induction m with
  | nil => exact ⟨fun hmem => (nomatch hmem), fun ⟨hget, hb⟩ => absurd hget.symm hb⟩
  | cons c rest ih =>
    obtain ⟨-, hlisted, hlt, hrest⟩ := (Memory.wf_cons c rest).1 h
    rw [List.mem_cons, ih hrest, Memory.get]
    by_cases hc : c.1 = a
    · have hunlisted : Memory.get rest a = Config.unlistedByte := Memory.get_eq_unlisted (hc ▸ hlt)
      rw [if_pos hc, hunlisted]
      constructor
      · rintro (rfl | ⟨hget, hb⟩)
        · exact ⟨rfl, hlisted⟩
        · exact absurd hget.symm hb
      · rintro ⟨rfl, -⟩
        exact .inl (Prod.ext hc.symm rfl)
    · rw [if_neg hc]
      constructor
      · rintro (rfl | hrest)
        · exact absurd rfl hc
        · exact hrest
      · exact .inr

theorem Memory.lt_of_mem {m : Memory} (h : m.wf = true) {c : Host.Cell} (hc : c ∈ m) : c.1 < 2 ^ 32 := by
  induction m with
  | nil => cases hc
  | cons d rest ih =>
    obtain ⟨hd, -, -, hrest⟩ := (Memory.wf_cons d rest).1 h
    obtain rfl | hc := List.mem_cons.1 hc
    · exact hd
    · exact ih hrest hc

/-- A cell of one memory is a cell of every other one in canonical form that reads alike. -/
theorem Memory.mem_of_sameBytes {m n : Memory} (hm : m.wf = true) (hn : n.wf = true) (h : ∀ a : Word, m.byte a = n.byte a)
    {c : Host.Cell} (hc : c ∈ m) : c ∈ n := by
  obtain ⟨hget, hlisted⟩ := (Memory.mem_iff_of_wf hm).1 hc
  have hbyte := h (BitVec.ofNat 32 c.1)
  rw [Memory.byte, Memory.byte, BitVec.toNat_ofNat, Nat.mod_eq_of_lt (Memory.lt_of_mem hm hc)] at hbyte
  exact (Memory.mem_iff_of_wf hn).2 ⟨hbyte ▸ hget, hlisted⟩

/-- Settles O18: both memories list the same cells, in the one rising order. -/
theorem canonicalMemoryIsUnique : Obligations.CanonicalMemoryIsUnique := by
  intro m n hm hn h
  have hcells (c : Host.Cell) : c ∈ m ↔ c ∈ n :=
    ⟨Memory.mem_of_sameBytes hm hn h, Memory.mem_of_sameBytes hn hm fun a => (h a).symm⟩
  have hirrefl : Std.Irrefl fun c d : Host.Cell => c.1 < d.1 := ⟨fun c => Nat.lt_irrefl c.1⟩
  have hantisymm : Std.Antisymm fun c d : Host.Cell => c.1 < d.1 :=
    ⟨fun _ _ hcd hdc => absurd hcd (Nat.lt_asymm hdc)⟩
  exact (Memory.pairwise_of_wf hm).eq_of_mem_iff (Memory.pairwise_of_wf hn) hcells

end Sys2Proof.Machine
end

section
/-! The effect of each instruction with its whole frame (R110, R111, R120, R123, R130, R132). -/

namespace Sys2Proof.Machine

/-! ### WAR and UNREC -/

/-- The report of a verdict changes nothing else. -/
theorem State.report_frame (s : State) (handled : Bool) :
    (s.report handled).inst.verdict = some handled ∧ (s.report handled).inst.var = s.inst.var ∧
    (s.report handled).inst.ctx = s.inst.ctx ∧ (s.report handled).inst.bus = s.inst.bus ∧
    State.sameBytes s (s.report handled) ∧ (s.report handled).mem = s.mem ∧ State.sameRest s (s.report handled) :=
  ⟨rfl, rfl, rfl, rfl, fun _ => rfl, rfl, rfl, rfl, rfl, rfl, rfl⟩

/-- Settles O19: the write of `VAR`, then the report of `true`. -/
theorem warWritesVar : Obligations.WarWritesVar := by
  intro t s
  obtain ⟨hverdict, hvar, hctx, hbus, hbytes, hmem, hrest⟩ := (s.setVar (s.slot t)).report_frame true
  exact ⟨_, rfl, hvar, hverdict, hctx, hbus, hbytes, hmem, hrest⟩

/-- Settles O20: the report of `false` is the whole effect. -/
theorem unwatchedWarChangesNothing : Obligations.UnwatchedWarChangesNothing := fun _ _ s =>
  ⟨_, rfl, s.report_frame false⟩

/-- Settles O21: the report of `false` is the whole effect. -/
theorem unrecChangesNothing : Obligations.UnrecChangesNothing := fun _ s => ⟨_, rfl, s.report_frame false⟩

/-! ### CASW -/

section afterCasw

variable (s : State) (t b : SlotIndex) (off : BitVec 8)

theorem State.afterCasw_slot_other {j : SlotIndex} (h : j ≠ t) : (s.afterCasw t b off).slot j = s.slot j :=
  Context.get_set_other _ h _

theorem State.afterCasw_pc : (s.afterCasw t b off).inst.ctx.pc = s.inst.ctx.pc := rfl

theorem State.sameRest_afterCasw : State.sameRest s (s.afterCasw t b off) := ⟨rfl, rfl, rfl, rfl, rfl⟩

/-- The word at the effective address afterwards, swapped or not (R123). -/
theorem State.afterCasw_word : (s.afterCasw t b off).mem.word (s.caswAddress b off) =
    if s.mem.word (s.caswAddress b off) = s.inst.var then s.slot t else s.mem.word (s.caswAddress b off) := by
  split
  · next heq => exact s.afterCasw_word_of_eq t heq
  · next hne => rw [s.afterCasw_mem_of_ne t hne]

theorem State.sameBytesOutside_afterCasw :
    State.sameBytesOutside s (s.afterCasw t b off) (s.caswAddress b off) := by
  by_cases heq : s.mem.word (s.caswAddress b off) = s.inst.var
  · exact s.sameBytesOutside_afterCasw_of_eq t heq
  · exact fun a _ => s.sameBytes_afterCasw_of_ne t heq a

end afterCasw

/-- With its word aligned and `Readable`, and `Writable` if it is to be stored, a CASW completes. -/
theorem exec_casw_of_accessible {t b : SlotIndex} {off : BitVec 8} {s : State}
    (ha : aligned (s.caswAddress b off) = true) (hr : s.map.readable (s.caswAddress b off) = true)
    (hw : s.mem.word (s.caswAddress b off) = s.inst.var → s.map.writable (s.caswAddress b off) = true) :
    exec (.casw t b off) s = .next (s.afterCasw t b off) := by
  refine exec_casw_next_iff.2 ⟨?_, rfl⟩
  rw [State.caswFault_of_readable ha hr, if_neg]
  rintro ⟨heq, hdenied⟩
  rw [hw heq] at hdenied
  cases hdenied

/-- Settles O22: the state after a CASW where the words are equal. -/
theorem caswSwapsOnMatch : Obligations.CaswSwapsOnMatch := by
  intro t b off s ha hr heq hw
  refine ⟨_, exec_casw_of_accessible ha hr fun _ => hw, s.afterCasw_word_of_eq t heq,
    s.sameBytesOutside_afterCasw t b off, (s.afterCasw_slot t b off).trans heq, fun _ => s.afterCasw_slot_other t b off,
    s.afterCasw_pc t b off, s.afterCasw_var t b off, s.afterCasw_verdict t b off, ?_, s.sameRest_afterCasw t b off⟩
  rw [State.afterCasw_bus, State.dataEvents_casw_of_eq t heq]

/-- Settles O23: the state after a CASW where the words differ, for which no store is due. -/
theorem caswReturnsOnMismatch : Obligations.CaswReturnsOnMismatch := by
  intro t b off s ha hr hne
  refine ⟨_, exec_casw_of_accessible ha hr fun heq => absurd heq hne, s.sameBytes_afterCasw_of_ne t hne,
    s.afterCasw_mem_of_ne t hne, s.afterCasw_slot t b off, fun _ => s.afterCasw_slot_other t b off,
    s.afterCasw_pc t b off, s.afterCasw_var t b off, s.afterCasw_verdict t b off, ?_, s.sameRest_afterCasw t b off⟩
  rw [State.afterCasw_bus, State.dataEvents_casw_of_ne t hne]

/-- Settles O24: the slot holds the loaded word. -/
theorem caswOutcomeShowsInSlot : Obligations.CaswOutcomeShowsInSlot := by
  intro t b off s u h
  obtain ⟨-, rfl⟩ := exec_casw_next_iff.1 h
  rw [State.afterCasw_slot]

/-- Settles O25: address and stored value are read before the slot is written. -/
theorem caswWithTargetAsBase : Obligations.CaswWithTargetAsBase := fun t off s ha hr hw =>
  ⟨_, exec_casw_of_accessible ha hr fun _ => hw, s.afterCasw_slot t t off, s.afterCasw_word t t off⟩

/-! ### The verdict `false` -/

/-- The two rows that answer `false` have one effect, and the other two answer `true`. -/
theorem exec_false {i : Instr} {s u : State} (h : exec i s = .next u) (hv : u.inst.verdict = some false) :
    u = s.report false ∧ ((∃ w, i = .unrec w) ∨ ∃ t id, i = .warUnwatched t id) := by
  cases i with
  | war t => cases h; exact absurd hv (by simp)
  | warUnwatched t id => cases h; exact ⟨rfl, .inr ⟨t, id, rfl⟩⟩
  | casw t b off =>
    obtain ⟨-, rfl⟩ := exec_casw_next_iff.1 h
    exact absurd hv (by simp)
  | unrec w => cases h; exact ⟨rfl, .inl ⟨w, rfl⟩⟩

/-- Settles O30: the effect of the two rows is one and the same report. -/
theorem falseVerdictChangesNothing : Obligations.FalseVerdictChangesNothing :=
  ⟨fun _ _ _ h hv => exec_false h hv, fun _ _ _ _ => rfl⟩

end Sys2Proof.Machine
end

section
/-! A whole invocation from the bytes at the pc (R101, R144, R145, R153). -/

namespace Sys2Proof.Machine

/-! ### Faults and completions (R153) -/

/-- The fault that the effect of an instruction ends in, if any: only a CASW has one. -/
def State.effectFault (s : State) : Instr → Option Fault
  | .casw _ b off => s.caswFault b off
  | .war _ => none
  | .warUnwatched _ _ => none
  | .unrec _ => none

/-- An outcome is the fault `f`, or, where there is none, a next state with a verdict. -/
def EndsIn (f : Option Fault) (o : Host.Outcome State Fault Refusal) : Prop :=
  match f with
  | some f => o = .fault f
  | none => ∃ u v, o = .next u ∧ u.inst.verdict = some v

theorem exec_endsIn (i : Instr) (s : State) : EndsIn (s.effectFault i) (exec i s) := by
  cases i with
  | war t => exact ⟨_, true, rfl, rfl⟩
  | warUnwatched t id => exact ⟨_, false, rfl, rfl⟩
  | casw t b off =>
    rw [exec_casw_eq, State.effectFault]
    cases s.caswFault b off with
    | some f => rfl
    | none => exact ⟨_, true, rfl, rfl⟩
  | unrec w => exact ⟨_, false, rfl, rfl⟩

theorem State.invocationFault_of_fetchable {s : State} (h : s.fetchable = true) :
    s.invocationFault = s.effectFault s.current := by
  obtain ⟨hbase, hnext⟩ := State.fetchable_iff.1 h
  have hnext : (!aligned s.inst.ctx.pc && !s.map.readable (nextAligned s.inst.ctx.pc)) = false := by
    rw [← Bool.not_or, Bool.not_eq_false', Bool.or_eq_true]
    exact hnext
  simp only [State.invocationFault, hbase, hnext, Bool.not_true, Bool.false_eq_true, if_false]
  cases s.current <;> rfl

/-- Where a fetch faults, its fault is the invocation's, the first word before the second (R74, R75). -/
theorem handle_fault_of_not_fetchable {s : State} (h : s.fetchable = false) :
    ∃ f, s.invocationFault = some f ∧ handle s = .fault f := by
  have hfetch := fetch_eq s.clearBus
  dsimp only [State.clearBus] at hfetch
  by_cases hbase : s.map.readable (alignedBase s.inst.ctx.pc) = true
  · have hrest : aligned s.inst.ctx.pc = false ∧ s.map.readable (nextAligned s.inst.ctx.pc) = false := by
      simpa [State.fetchable, hbase] using h
    obtain ⟨ha, hnext⟩ := hrest
    refine ⟨.fetchInaccessible (nextAligned s.inst.ctx.pc), ?_, handle_of_fetch_error (hfetch.trans ?_)⟩
    · simp [State.invocationFault, hbase, ha, hnext]
    · simp [hbase, ha, hnext]
  · refine ⟨.fetchInaccessible (alignedBase s.inst.ctx.pc), ?_, handle_of_fetch_error (hfetch.trans (if_neg hbase))⟩
    simp [State.invocationFault, hbase]

/-- An invocation ends in the fault that R153 gives it, or with a verdict. -/
theorem handle_endsIn (s : State) : EndsIn s.invocationFault (handle s) := by
  cases h : s.fetchable with
  | true =>
    have heffect : s.afterFetch.effectFault s.current = s.effectFault s.current := by cases s.current <;> rfl
    rw [State.invocationFault_of_fetchable h, handle_of_fetchable h, ← heffect]
    exact exec_endsIn s.current s.afterFetch
  | false =>
    obtain ⟨f, hfault, hhandle⟩ := handle_fault_of_not_fetchable h
    rw [hfault]
    exact hhandle

/-- The dispatcher changes neither a fault nor a verdict. -/
theorem EndsIn.dispatch {f : Option Fault} {o : Host.Outcome State Fault Refusal} (h : EndsIn f o) :
    EndsIn f (dispatch o) := by
  cases f with
  | some f => exact dispatch_fault.2 h
  | none =>
    obtain ⟨u, v, rfl, hv⟩ := h
    refine ⟨_, v, dispatch_next.2 ⟨u, rfl, rfl⟩, ?_⟩
    split <;> exact hv

/-- Settles O33: the dispatcher adds no fault to the invocation's one. -/
theorem invocationFaultPriority : Obligations.InvocationFaultPriority := by
  intro s hidle
  have hends := (handle_endsIn s).dispatch
  rw [← step_of_idle hidle] at hends
  cases hfault : s.invocationFault with
  | some g =>
    have hstep : step s = .fault g := by rwa [hfault] at hends
    rw [hstep]
    simp
  | none =>
    obtain ⟨u, v, hstep, hv⟩ : ∃ u v, step s = .next u ∧ u.inst.verdict = some v := by rwa [hfault] at hends
    rw [hstep]
    exact ⟨by simp, fun _ => ⟨u, v, rfl, hv⟩, by simp⟩

/-! ### From the bytes at the pc -/

/-- A whole invocation with its fetch serviced, and the dispatcher's part. -/
theorem step_of_fetchable {s : State} (hidle : s.idle) (h : s.fetchable = true) :
    step s = dispatch (exec s.current s.afterFetch) := by
  rw [step_of_idle hidle, handle_of_fetchable h]

/-- Settles O31: the instruction that the bytes decode to is the current one. -/
theorem stepRunsDecodedInstruction : Obligations.StepRunsDecodedInstruction := by
  intro s i hidle hfetchable _ hbytes
  have hcurrent : s.current = i := by
    simp only [decodeBytes, Except.ok.injEq, Prod.mk.injEq, and_true] at hbytes
    exact hbytes
  have hstep := step_of_fetchable hidle hfetchable
  rw [hcurrent] at hstep
  rw [hstep]
  exact ⟨rfl, fun u hu => dispatch_next.2 ⟨u, hu, rfl⟩, fun f hf => dispatch_fault.2 hf⟩

/-- Settles O40: the dispatcher adds to the pc, which the invocation keeps, and to nothing else. -/
theorem stepResumesAfterTrue : Obligations.StepResumesAfterTrue := by
  intro s v hidle hv
  have hpc := (handle_frame hv).pc
  refine ⟨_, (step_of_idle hidle).trans (dispatch_next.2 ⟨v, hv, rfl⟩), ?_⟩
  split
  · exact ⟨rfl, rfl, rfl, rfl, rfl, ⟨rfl, rfl, rfl, rfl, rfl⟩, by rw [resumeAfter_ctx, hpc]⟩
  · exact ⟨rfl, rfl, rfl, rfl, rfl, ⟨rfl, rfl, rfl, rfl, rfl⟩, hpc⟩

theorem State.current_of_war_bytes {s : State} {t : SlotIndex} (h0 : s.mem.byte s.inst.ctx.pc = t ++ (0 : BitVec 4))
    (h1 : s.mem.byte (s.inst.ctx.pc + 1) = 12) (h2 : s.mem.byte (s.inst.ctx.pc + 2) = 0x13) :
    s.current = .war t := by
  obtain ⟨hhigh, hid, -, -, ht, hlow⟩ := fieldOf_insnOfBytes t 0 12 0x13
  rw [State.current, State.insnAt, h0, h1, h2, decode, decodeWith_setWidth, decodeShape_of_war_fields hhigh hlow, ht, hid]
  rfl

theorem State.current_of_casw_bytes {s : State} {t b : SlotIndex} {off : BitVec 8}
    (h0 : s.mem.byte s.inst.ctx.pc = t ++ (2 : BitVec 4)) (h1 : s.mem.byte (s.inst.ctx.pc + 1) = (0xE : BitVec 4) ++ b)
    (h2 : s.mem.byte (s.inst.ctx.pc + 2) = off) : s.current = .casw t b off := by
  obtain ⟨hoff, -, hmid, hbase, ht, hlow⟩ := fieldOf_insnOfBytes t 2 ((0xE : BitVec 4) ++ b) off
  rw [BitVec.extractLsb'_append_eq_left] at hmid
  rw [BitVec.extractLsb'_append_eq_right] at hbase
  rw [State.current, State.insnAt, h0, h1, h2, decode, decodeWith_setWidth, decodeShape_of_cas_fields hmid hlow, ht,
    hbase, hoff]
  rfl

/-- Settles O38: the bytes are the watched WAR's, whose effect the dispatcher resumes after. -/
theorem watchedWarFromBytes : Obligations.WatchedWarFromBytes := by
  intro s t hidle hfetchable h0 h1 h2
  have hstep := step_of_fetchable hidle hfetchable
  rw [State.current_of_war_bytes h0 h1 h2] at hstep
  exact ⟨_, hstep, rfl, rfl, rfl, fun _ => rfl, fun _ => rfl, rfl, rfl, rfl, rfl, rfl⟩

/-- Settles O39: the bytes are the CASW's, which completes, and the dispatcher resumes after it. -/
theorem caswFromBytes : Obligations.CaswFromBytes := by
  intro s t b off hidle hfetchable h0 h1 h2 ha hr hw
  have hexec : exec (.casw t b off) s.afterFetch = .next (s.afterFetch.afterCasw t b off) :=
    exec_casw_of_accessible ((s.aligned_caswAddress b off).trans ha) hr fun _ => hw
  have hstep := step_of_fetchable hidle hfetchable
  rw [State.current_of_casw_bytes h0 h1 h2, hexec] at hstep
  refine ⟨_, hstep, rfl, rfl, s.afterFetch.afterCasw_slot t b off, fun _ => s.afterFetch.afterCasw_slot_other t b off,
    s.afterFetch.afterCasw_word t b off, s.afterFetch.sameBytesOutside_afterCasw t b off, rfl, rfl, rfl, rfl, rfl, rfl⟩

/-! ### The verdict `false` repeated (R145) -/

theorem State.fetchable_of_handle {s u : State} (h : handle s = .next u) : s.fetchable = true := by
  by_contra hnot
  obtain ⟨a, hfault⟩ := handle_of_not_fetchable (Bool.eq_false_iff.2 hnot)
  rw [h] at hfault
  cases hfault

/-- Settles O41: the state after the verdict `false` differs from the one before in the verdict and the record of events, which
the next invocation writes again as they are. -/
theorem unhandledTrapRepeats : Obligations.UnhandledTrapRepeats := by
  intro s u hidle h hv
  rw [step_of_idle hidle] at h
  obtain ⟨w, hw, rfl⟩ := dispatch_next.1 h
  by_cases htrue : w.inst.verdict = some true
  · rw [if_pos htrue, resumeAfter_verdict, htrue] at hv
    cases hv
  · rw [if_neg htrue] at hv ⊢
    obtain ⟨hstate, hrow⟩ := exec_false (handle_next hw) hv
    have hbefore : s.fetchable = true := State.fetchable_of_handle hw
    have hfetchable : w.fetchable = true := by rw [hstate]; exact hbefore
    have hcurrent : w.current = s.current := by rw [hstate]; rfl
    have hafter : w.afterFetch = w := by rw [hstate]; rfl
    have hreport : w.report false = w := by rw [hstate]; rfl
    have hidle' : w.idle := by rw [hstate]; exact hidle
    rw [step_of_fetchable hidle' hfetchable, hcurrent, hafter]
    refine dispatch_next.2 ⟨w, ?_, (if_neg htrue).symm⟩
    obtain ⟨x, hi⟩ | ⟨t, id, hi⟩ := hrow <;> rw [hi] <;> exact congrArg _ hreport

/-! ### What an invocation reads (R20) -/

/-- Two machines alike in all that an invocation reads: the context, `VAR`, memory and its map. -/
structure Alike (s t : State) : Prop where
  ctx : s.inst.ctx = t.inst.ctx
  var : s.inst.var = t.inst.var
  mem : s.mem = t.mem
  map : s.map = t.map

section alike

variable {s t : State} (h : Alike s t)
include h

theorem Alike.fetchable : s.fetchable = t.fetchable := by
  rw [State.fetchable, State.fetchable, h.ctx, h.map]

theorem Alike.current : s.current = t.current := by
  rw [State.current, State.current, State.insnAt, State.insnAt, h.ctx, h.mem]

theorem Alike.caswFault (b : SlotIndex) (off : BitVec 8) : s.caswFault b off = t.caswFault b off := by
  rw [State.caswFault, State.caswFault, State.caswAddress, State.caswAddress, h.ctx, h.var, h.mem, h.map]

theorem Alike.invocationFault : s.invocationFault = t.invocationFault := by
  simp only [State.invocationFault, h.ctx, h.map, h.current, h.caswFault]

theorem Alike.afterFetch : Alike s.afterFetch t.afterFetch := ⟨h.ctx, h.var, h.mem, h.map⟩

/-- The effect of an instruction from two machines alike that have recorded the same events. -/
theorem Alike.effectOf_exec (hbus : s.inst.bus = t.inst.bus) (i : Instr) :
    effectOf (exec i s) = effectOf (exec i t) := by
  cases i with
  | casw k b off =>
    rw [exec_casw_eq, exec_casw_eq, h.caswFault]
    cases t.caswFault b off with
    | some f => rfl
    | none =>
      have haddr : s.caswAddress b off = t.caswAddress b off := by rw [State.caswAddress, State.caswAddress, h.ctx]
      rw [Option.elim_none, Option.elim_none, effectOf, effectOf, State.afterCasw, State.afterCasw]
      simp only [State.dataEvents, State.slot, haddr, h.ctx, h.var, h.mem, hbus]
  | war k => simp [effectOf, exec, execWar, State.slot, h.ctx, h.mem, hbus]
  | warUnwatched k id => simp [effectOf, exec, execWarUnwatched, h.ctx, h.var, h.mem, hbus]
  | unrec w => simp [effectOf, exec, execUnrec, h.ctx, h.var, h.mem, hbus]

/-- A whole invocation from two machines alike. -/
theorem Alike.effectOf_handle : effectOf (handle s) = effectOf (handle t) := by
  cases hs : s.fetchable with
  | true =>
    have hbus : s.afterFetch.inst.bus = t.afterFetch.inst.bus := congrArg (fun c : Context => fetchEvents c.pc) h.ctx
    rw [handle_of_fetchable hs, handle_of_fetchable (h.fetchable ▸ hs), h.current]
    exact h.afterFetch.effectOf_exec hbus t.current
  | false =>
    obtain ⟨f, hf, hsf⟩ := handle_fault_of_not_fetchable hs
    obtain ⟨g, hg, htg⟩ := handle_fault_of_not_fetchable (h.fetchable ▸ hs)
    rw [h.invocationFault, hg] at hf
    rw [hsf, htg, Option.some.inj hf]

end alike

/-- The dispatcher acts on the effect alone. -/
theorem effectOf_dispatch_congr {o o' : Host.Outcome State Fault Refusal} (h : effectOf o = effectOf o') :
    effectOf (dispatch o) = effectOf (dispatch o') := by
  cases o <;> cases o' <;> simp only [effectOf, reduceCtorEq] at h
  case next.next u u' =>
    simp only [Host.Outcome.next.injEq, Effect.mk.injEq] at h
    obtain ⟨hctx, hvar, hverdict, hbus, hmem⟩ := h
    simp only [dispatch, hverdict]
    split <;> simp [effectOf, hctx, hvar, hverdict, hbus, hmem]
  case fault.fault f g => exact h
  case refused.refused r q => exact h

/-- Settles O42: machines alike in what an invocation reads have the same effect, before the dispatcher and after it. -/
theorem invocationDependsOnlyOnItsInputs : Obligations.InvocationDependsOnlyOnItsInputs := by
  intro s t hs ht hctx hvar hmem hmap
  rw [step_of_idle hs, step_of_idle ht]
  exact effectOf_dispatch_congr (Alike.effectOf_handle ⟨hctx, hvar, hmem, hmap⟩)

/-! ### The other cores' instances (R17, R161) -/

theorem exec_withOthers (i : Instr) (s : State) (o : List Instance) :
    exec i { s with others := o } = withOthers o (exec i s) := by
  cases i with
  | casw t b off =>
    have hfault : State.caswFault { s with others := o } b off = s.caswFault b off := rfl
    rw [exec_casw_eq, exec_casw_eq, hfault]
    cases s.caswFault b off <;> rfl
  | war t => rfl
  | warUnwatched t id => rfl
  | unrec w => rfl

theorem handle_withOthers (s : State) (o : List Instance) :
    handle { s with others := o } = withOthers o (handle s) := by
  cases h : s.fetchable with
  | true =>
    rw [handle_of_fetchable h, handle_of_fetchable (show State.fetchable { s with others := o } = true from h)]
    exact exec_withOthers s.current s.afterFetch o
  | false =>
    obtain ⟨f, hf, hsf⟩ := handle_fault_of_not_fetchable h
    obtain ⟨g, hg, hog⟩ := handle_fault_of_not_fetchable (show State.fetchable { s with others := o } = false from h)
    have hfg : f = g := Option.some.inj (hf.symm.trans hg)
    rw [hsf, hog, hfg]
    rfl

theorem caswFinish_withOthers (l : Loaded) (s : State) (o : List Instance) :
    caswFinish l { s with others := o } = withOthers o (caswFinish l s) := by
  rw [caswFinish_eq, caswFinish_eq]
  split
  · split <;> rfl
  · rfl

theorem dispatch_withOthers (r : Host.Outcome State Fault Refusal) (o : List Instance) :
    dispatch (withOthers o r) = withOthers o (dispatch r) := by
  cases r with
  | next s =>
    simp only [withOthers, dispatch]
    split <;> rfl
  | fault f => rfl
  | refused q => rfl

/-- The rest of an invocation, from whichever stage it stands at, does not depend on the other cores. -/
theorem complete_withOthers (s : State) (o : List Instance) :
    complete { s with others := o } = withOthers o (complete s) := by
  have hflight : ({ s with others := o } : State).inst.flight = s.inst.flight := rfl
  cases hfl : s.inst.flight with
  | none => rw [complete_of_no_flight hfl, complete_of_no_flight (hflight.trans hfl), handle_withOthers]
  | some f =>
    cases f with
    | firstWord w0 =>
      cases h : fetchSecond (s.setFlight none) w0 with
      | error g =>
        obtain ⟨hr, hg⟩ := fetchSecond_error.1 h
        have ho : fetchSecond (State.setFlight { s with others := o } none) w0 = .error g :=
          fetchSecond_error.2 ⟨hr, hg⟩
        rw [complete_of_firstWord_error hfl h, complete_of_firstWord_error (hflight.trans hfl) ho]
        rfl
      | ok r =>
        obtain ⟨w, u⟩ := r
        obtain ⟨hr, hw, rfl⟩ := fetchSecond_ok.1 h
        have ho : fetchSecond (State.setFlight { s with others := o } none) w0 = .ok (w, _) :=
          fetchSecond_ok.2 ⟨hr, hw, rfl⟩
        rw [complete_of_firstWord_ok hfl h, complete_of_firstWord_ok (hflight.trans hfl) ho, ← exec_withOthers]
        rfl
    | fetched w =>
      rw [complete_of_fetched hfl, complete_of_fetched (hflight.trans hfl), ← exec_withOthers]
      rfl
    | loaded l =>
      rw [complete_of_loaded hfl, complete_of_loaded (hflight.trans hfl), ← caswFinish_withOthers]
      rfl

/-- Settles O47: the independence of the invocation, and its frame. -/
theorem otherCoresUnseen : Obligations.OtherCoresUnseen := by
  intro s o hin
  have hin' : State.inputs { s with others := o } = [] := hin
  rw [step_of_no_input hin, step_of_no_input hin']
  refine ⟨by rw [complete_withOthers, dispatch_withOthers], fun u h => ?_⟩
  have e : VarEffect s.running s u := .of_dispatch h fun _ => complete_varEffect
  exact e.others

end Sys2Proof.Machine
end

section
/-! The inputs of the environment and what is placed, written or handed over between steps (R43, R142, R163, R176, R181). -/

namespace Sys2Proof.Machine

/-! ### Reset, traps and cores -/

theorem MemoryMap.find_reset (a : Word) : MemoryMap.find MemoryMap.reset a =
    some { base := 0, size := 2 ^ 32, readable := true, writable := true } := by
  rw [MemoryMap.reset, MemoryMap.find_cons, if_pos]
  have ha : a.toNat < 2 ^ 32 := a.isLt
  simp only [Region.holds, Nat.zero_le, decide_true, Bool.true_and, Nat.zero_add, decide_eq_true ha]

/-- Settles O54: a single core, and one region that holds every address. -/
theorem resetValues : Obligations.ResetValues := by
  refine ⟨rfl, fun i hi => ?reset, fun _ => rfl, fun a => ?map, rfl⟩
  case reset =>
    rw [List.mem_singleton.1 hi]
    refine ⟨rfl, rfl, rfl, rfl, rfl, fun k => ?_⟩
    exact Vector.getElem_replicate k.isLt
  case map =>
    have hfind := MemoryMap.find_reset a
    exact ⟨by rw [State.reset, MemoryMap.readable, hfind]; rfl, by rw [State.reset, MemoryMap.writable, hfind]; rfl⟩

theorem environment_capture_of_no_flight {s : State} {c : Context} (hfl : s.inst.flight = none) :
    environment (.capture true c) s = .next (takeTrap s c) := by
  simp [environment, hfl]

/-- Settles O51: a legal capture is the entry of the trap. -/
theorem trapEntryLendsContext : Obligations.TrapEntryLendsContext := by
  intro s c rest hin hfl
  have hstep : step s = .next (takeTrap { s with inputs := rest } c) :=
    (step_of_input hin).trans (environment_capture_of_no_flight hfl)
  exact ⟨_, hstep, rfl, rfl, rfl, rfl, hfl, rfl, rfl, fun _ => rfl, rfl, rfl, rfl⟩

/-- Settles O52: each breach meets the check that names it. -/
theorem contractBreachesRefused : Obligations.ContractBreachesRefused := by
  refine ⟨fun s illegal c rest hin hfl => ?nested, fun s c rest hin hfl => ?cause, fun s rest hin hfl => ?reset⟩
  case nested => rw [step_of_input hin, environment, if_pos hfl]
  case cause => rw [step_of_input hin]; simp [environment, hfl]
  case reset => rw [step_of_input hin, environment, if_pos hfl]

theorem selectCore_of_mem {s : State} {k : Nat} (hk : k ∈ s.cores) : ∃ u, selectCore s k = .next u := by
  unfold selectCore
  split
  · exact ⟨s, rfl⟩
  · next hne =>
    split
    · next habsent =>
      obtain ⟨i, hi, rfl⟩ := List.mem_map.1 hk
      obtain rfl | hi := List.mem_cons.1 hi
      · exact absurd rfl hne
      · exact absurd rfl (exchange_none.1 habsent i hi)
    · exact ⟨_, rfl⟩

theorem selectCore_of_not_mem {s : State} {k : Nat} (hk : k ∉ s.cores) : selectCore s k = .refused (.noSuchCore k) := by
  have habsent : ∀ i ∈ s.instances, i.core ≠ k := fun i hi hik => hk (List.mem_map.2 ⟨i, hi, hik⟩)
  have hexchange : exchange s.others k s.inst = none :=
    exchange_none.2 fun i hi => habsent i (List.mem_cons_of_mem _ hi)
  rw [selectCore, if_neg (habsent s.inst List.mem_cons_self), hexchange]

theorem selectCore_frame {s u : State} {k : Nat} (h : selectCore s k = .next u) :
    u.inst.core = k ∧ u.mem = s.mem ∧ u.map = s.map ∧ u.inputs = s.inputs := by
  obtain ⟨hk, rfl⟩ | ⟨-, i, before, after, hi, -, rfl⟩ := selectCore_next h
  · exact ⟨hk, rfl, rfl, rfl⟩
  · exact ⟨hi, rfl, rfl, rfl⟩

/-- Settles O55, by whether the machine has the core. -/
theorem coreSelection : Obligations.CoreSelection := by
  intro s k rest hin
  rw [step_of_input hin, environment]
  refine ⟨fun hk => ?present, fun hk => selectCore_of_not_mem hk⟩
  case present =>
    obtain ⟨u, hu⟩ := selectCore_of_mem (s := { s with inputs := rest }) hk
    obtain ⟨hcore, hmem, hmap, hinputs⟩ := selectCore_frame hu
    have hperm : u.instances.Perm s.instances := selectCore_instances_perm (s := { s with inputs := rest }) hu
    exact ⟨u, hu, hcore, hperm, fun a => congrArg (Memory.byte · a) hmem, hmem, hmap, hinputs⟩

/-! ### A placed instruction (log 9) -/

theorem decode_of_decodeTableWord {nbits w : Nat} {i : Instr} (h : decodeTableWord nbits w = some i) :
    decode ((tableWord nbits w).setWidth 32) = i := by
  have hbytes := decodeBytes_bytesOfInsn (tableWord nbits w) []
  rw [List.append_nil] at hbytes
  rw [decodeTableWord, hbytes] at h
  split at h
  · exact Option.some.inj h
  · cases h

theorem placeInsn_insnAt (s : State) (x : InsnWord) : (placeInsn s x).insnAt = x := by
  have e2 : s.inst.ctx.pc + 1 + 1 = s.inst.ctx.pc + 2 := by rw [BitVec.add_assoc]; rfl
  have h01 : s.inst.ctx.pc ≠ s.inst.ctx.pc + 1 := by bv_omega
  have h02 : s.inst.ctx.pc ≠ s.inst.ctx.pc + 2 := by bv_omega
  have h12 : s.inst.ctx.pc + 1 ≠ s.inst.ctx.pc + 2 := by bv_omega
  simp only [State.insnAt, placeInsn, bytesOfInsn, Memory.putBytes, Memory.byte_put, e2]
  simp only [h01, h02, h12, if_true, if_false, insnOfBytes_bytes]

theorem placeInsn_fetchable (s : State) (x : InsnWord) : (placeInsn s x).fetchable = true := by
  refine State.fetchable_iff.2 ⟨?base, ?next⟩
  case base =>
    dsimp only [placeInsn]
    split <;> simp [MemoryMap.readable_withReadable]
  case next =>
    dsimp only [placeInsn]
    split
    · next ha => exact .inl ha
    · exact .inr (by simp [MemoryMap.readable_withReadable])

/-- Settles O32: the placed word is `Readable` and is what the fetch answers. -/
theorem placedInstructionRunsNext : Obligations.PlacedInstructionRunsNext := by
  intro s nbits w i hi
  have hcurrent : (s.withFetchWord nbits w).current = i := by
    rw [State.withFetchWord, State.current, placeInsn_insnAt, decode_of_decodeTableWord hi]
  have hstep := step_of_fetchable (s := s.withFetchWord nbits w) ⟨rfl, rfl⟩ (placeInsn_fetchable s _)
  rwa [hcurrent] at hstep

/-! ### Several steps -/

theorem run_of_step {s u : State} (h : step s = .next u) (k : Nat) :
    Host.Core.run Sys2Proof.core (k + 1) s = Host.Core.run Sys2Proof.core k u := by
  have hstep : Sys2Proof.core.step s = .next u := h
  simp only [Host.Core.run, hstep]

/-- A whole invocation of a watched WAR sets `VAR` to its slot (R110). -/
theorem step_war {s : State} {t : SlotIndex} (hidle : s.idle) (hfetchable : s.fetchable = true)
    (hcurrent : s.current = .war t) :
    ∃ u, step s = .next u ∧ u.inst.var = s.slot t ∧ u.inst.flight = none := by
  rw [step_of_fetchable hidle hfetchable, hcurrent]
  exact ⟨_, rfl, rfl, hidle.2⟩

/-- Settles O50: the invocation of the first program sets `VAR`, and the entry of the other one's trap keeps it. -/
theorem programsOfOneCoreShareVar : Obligations.ProgramsOfOneCoreShareVar := by
  intro s c d t hfl hin hfetchable hcurrent
  have hentry : step s = .next (takeTrap { s with inputs := [] } c) :=
    (step_of_input hin).trans (environment_capture_of_no_flight hfl)
  obtain ⟨u, hwar, hvar, hflight⟩ :=
    step_war (s := takeTrap { s with inputs := [] } c) ⟨rfl, hfl⟩ hfetchable hcurrent
  refine ⟨u, takeTrap { u with inputs := [] } d, ?_, hvar,
    (step_of_input rfl).trans (environment_capture_of_no_flight hflight), rfl, hvar⟩
  rw [run_of_step hentry, run_of_step hwar]
  rfl

/-! ### A CASW taken event by event (R43) -/

/-- What a CASW holds after its load (R120). -/
def State.loadedCasw (s : State) (t b : SlotIndex) (off : BitVec 8) : Loaded where
  target := t
  newValue := s.slot t
  address := s.caswAddress b off
  oldValue := s.mem.word (s.caswAddress b off)

/-- An aligned fetch is one memory event, after which the word is complete. -/
theorem step_event_of_aligned {s : State} {rest : List Input} (hin : s.inputs = .event :: rest)
    (hfl : s.inst.flight = none) (ha : aligned s.inst.ctx.pc = true) (hfetchable : s.fetchable = true) :
    ∃ u, step s = .next u ∧ u.inputs = rest ∧ u.inst.flight = some (.fetched (s.insnAt.setWidth 32)) ∧ Alike s u := by
  have hr : s.map.readable (alignedBase s.inst.ctx.pc) = true := (State.fetchable_iff.1 hfetchable).1
  have hfirst : fetchFirst (State.clearBus { s with inputs := rest }) = .ok (s.mem.word (alignedBase s.inst.ctx.pc), _) :=
    fetchFirst_ok.2 ⟨hr, rfl, rfl⟩
  have hword : assembleAligned (s.mem.word (alignedBase s.inst.ctx.pc)) = s.insnAt.setWidth 32 :=
    (fetch_ok (fetch_of_aligned hfirst ha)).1
  rw [step_of_input hin, environment, oneEvent]
  dsimp only
  rw [hfl]
  dsimp only
  rw [hfirst]
  dsimp only
  rw [if_pos ha, hword]
  exact ⟨_, rfl, rfl, rfl, rfl, rfl, rfl, rfl⟩

/-- The next memory event of a fetched CASW is its load. -/
theorem step_event_of_fetched_casw {s : State} {rest : List Input} {w : Word} {t b : SlotIndex} {off : BitVec 8}
    (hin : s.inputs = .event :: rest) (hfl : s.inst.flight = some (.fetched w)) (hw : decode w = .casw t b off)
    (ha : aligned (s.caswAddress b off) = true) (hr : s.map.readable (s.caswAddress b off) = true) :
    ∃ u, step s = .next u ∧ u.inputs = rest ∧ u.inst.flight = some (.loaded (s.loadedCasw t b off)) ∧ Alike s u := by
  have hload : caswLoad t b off (State.setFlight { s with inputs := rest } none) = .ok (s.loadedCasw t b off, _) :=
    caswLoad_ok.2 ⟨ha, hr, rfl, rfl⟩
  rw [step_of_input hin, environment, oneEvent]
  dsimp only
  rw [hfl]
  dsimp only
  rw [eventAfterFetch, hw]
  dsimp only
  rw [hload]
  exact ⟨_, rfl, rfl, rfl, rfl, rfl, rfl, rfl⟩

/-- A loaded CASW compares the word it loaded, not the one in memory now, and stores (R43, R123). -/
theorem step_of_loaded {s : State} {l : Loaded} (hin : s.inputs = []) (hfl : s.inst.flight = some (.loaded l))
    (heq : l.oldValue = s.inst.var) (hw : s.map.writable l.address = true) :
    ∃ u, step s = .next u ∧ u.mem = s.mem.putWord l.address l.newValue ∧ u.slot l.target = l.oldValue ∧
      u.inst.verdict = some true := by
  have hfinish : caswFinish l (s.setFlight none) = .next _ :=
    (caswFinish_eq l (s.setFlight none)).trans ((if_pos heq).trans (if_pos hw))
  rw [step_of_no_input hin, complete_of_loaded hfl, hfinish]
  exact ⟨_, rfl, rfl, Context.get_set_same _ _ _, rfl⟩

/-- Settles O49: the load is the second event, and the store that ends the invocation does not load again. -/
theorem foreignWriteIsOverwritten : Obligations.ForeignWriteIsOverwritten := by
  intro s t b off w hidle hpc hfetchable hcurrent ha hr hw heq
  obtain ⟨s1, hfetch, hin1, hfl1, halike1⟩ := step_event_of_aligned
    (s := { s with inputs := [.event, .event, .agentWrite (s.caswAddress b off) (bytesOfWord w)] }) rfl hidle.2 hpc hfetchable
  have haddr : s1.caswAddress b off = s.caswAddress b off := by
    rw [State.caswAddress, ← halike1.ctx]
    rfl
  obtain ⟨s2, hload, hin2, hfl2, halike2⟩ := step_event_of_fetched_casw hin1 hfl1 hcurrent
    (by rw [haddr, ha]) (by rw [haddr, ← halike1.map, hr])
  have hloaded : s1.loadedCasw t b off = s.loadedCasw t b off := by
    rw [State.loadedCasw, State.loadedCasw, haddr, State.slot, ← halike1.ctx, ← halike1.mem]
    rfl
  rw [hloaded] at hfl2
  obtain ⟨v, hwrite, hword, -, hinst, -, hmap, hinv⟩ := agentWriteIsOneEvent s2 (s.caswAddress b off) w [] hin2
  have hvar : s.inst.var = v.inst.var := (halike1.var.trans halike2.var).trans (congrArg Instance.var hinst).symm
  have hmapv : s.map = v.map := (halike1.map.trans halike2.map).trans hmap.symm
  obtain ⟨u, hstep, hmem, hslot, hverdict⟩ := step_of_loaded (l := s.loadedCasw t b off) hinv (by rw [hinst, hfl2])
    (heq.trans hvar) (hmapv ▸ hw)
  have hswapped : u.mem.word (s.caswAddress b off) = s.slot t := by
    rw [hmem]
    exact v.mem.word_putWord (s.caswAddress b off) (s.slot t)
  refine ⟨v, u, ?_, hword, hstep, hswapped, hslot.trans heq, hverdict⟩
  rw [run_of_step hfetch, run_of_step hload, run_of_step hwrite]
  rfl

end Sys2Proof.Machine
end
